-- ==== Sys2Proof/Word.lean ====
section
/-! DEFINITION. The word types of the block: command words (spec R60), table values (R14), and the address and data of
one chip register write (R43). -/

namespace Sys2Proof

/-- A command word `W`, 64 bits (spec R60, R68). -/
abbrev CommandWord := BitVec 64

/-- A value of VALW = 32 bits, read as two's complement by `BitVec.toInt` (spec R5, R14, R66). -/
abbrev Value := BitVec 32

/-- A chip register address, 16 bits (spec R40 (b)). -/
abbrev Addr := BitVec 16

/-- One byte of chip register data (spec R40 (b)). -/
abbrev Byte := BitVec 8

end Sys2Proof
end

