-- ==== Sys2Proof/Syntax.lean ====
section
/-! DEFINITION. The commands as syntax: one constructor of `Instr` for each row of spec/opcode_table.json, with the
operands its format carries (spec R61, R63), and the names its operands range over (R12). -/

namespace Sys2Proof

/-- The eight channels, in the order of their indices 0 to 7 (spec R12). -/
inductive Channel
  | p1 | p2 | tri | noi | dmc | v1 | v2 | saw
deriving DecidableEq, Repr

/-- The four envelope kinds, in the order of their codes 0 to 3 (spec R12). -/
inductive EnvKind
  | vol | duty | arp | pitch
deriving DecidableEq, Repr

/-- The causes of an illegal command (spec R171). -/
inductive Illegal
  /-- Cause 1: OPC is not in the opcode map. -/
  | reservedOpcode
  /-- Cause 2: RSV or a field the format does not use is non-zero. -/
  | reservedField
  /-- Cause 3: an envelope command has CH = 4. -/
  | noSuchEnvelope
deriving DecidableEq, Repr

/-- The 24 commands (spec R64). A 32-bit immediate is kept as its bits; NOTE and VEL are seven bits, RT and the flag of
format CF one bit, IDX six bits (R60, R63). -/
inductive Instr
  | etrig (ch : Channel) (k : EnvKind)
  | erel (ch : Channel) (k : EnvKind)
  | eadv (ch : Channel) (k : EnvKind)
  | eslen (ch : Channel) (k : EnvKind) (n : Value)
  | esloop (ch : Channel) (k : EnvKind) (n : Value)
  | esrel (ch : Channel) (k : EnvKind) (n : Value)
  | esdiv (ch : Channel) (k : EnvKind) (n : Value)
  | esval (ch : Channel) (k : EnvKind) (i : Fin 64) (n : Value)
  | eldval (ch : Channel) (k : EnvKind) (i : Fin 64) (n : Value)
  | estep (ch : Channel) (k : EnvKind)
  | egraw (ch : Channel) (k : EnvKind)
  | egstate (ch : Channel) (k : EnvKind)
  | eglen (ch : Channel) (k : EnvKind)
  | egloop (ch : Channel) (k : EnvKind)
  | egrel (ch : Channel) (k : EnvKind)
  | egdiv (ch : Channel) (k : EnvKind)
  | egval (ch : Channel) (k : EnvKind) (i : Fin 64)
  | ctrig (ch : Channel) (note vel : BitVec 7) (rt : Bool)
  | crel (ch : Channel)
  | cbend (ch : Channel) (n : Value)
  | ckeyt (ch : Channel) (b : Bool)
  | cvsens (ch : Channel) (b : Bool)
  | cupd (ch : Channel)
  | frame
deriving DecidableEq, Repr

end Sys2Proof
end

