-- ==== Sys2Proof/Config.lean ====
section
/-! DEFINITION. The configuration (spec R6): a value for every parameter that spec R5 marks OPEN, and the DPCM table of
R46. It is not state: no command changes it (R34). The machine runs under `Config.current`, an opaque constant, so a
claim about the machine holds for every configuration (log 4). -/

namespace Sys2Proof

/-- The variants whose period PERIODFN computes (spec R124): all but Noise and Dpcm. -/
inductive Tone
  | pulse | triangle | vrc6Pulse | vrc6Saw
deriving DecidableEq, Repr

/-- A DPCM patch: "{pitch divider 0-15, loop flag, sample index or 'none'}" (spec R46). -/
structure Patch where
  pitch  : BitVec 4
  loop   : Bool
  sample : Option Nat
deriving DecidableEq, Repr

/-- A configuration (spec R6).
* `minMag k`, `maxMag k`: the magnitudes of MINVAL[k] and MAXVAL[k], so that MINVAL[k] ≤ 0 ≤ MAXVAL[k], which R15
  requires, holds of every configuration (log 5).
* `bendDiv`: BEND_DIV (R5, R121).
* `periodFn bendDiv t n12 bend`: PERIODFN[t](n12, bend) under that BEND_DIV; nothing is assumed of it but that it is a
  total function that returns an integer (R6, R128; log 17).
* `patches pc`: PatchOf(pc) (R46); `sampleLens`: the byte lengths of the samples in order (R46, R47; log 11).
* `beyondTable i`: the free value a read of table entry i > 63 would give; no reachable state makes one (R32; log 8). -/
structure Config where
  minMag      : EnvKind → Nat
  maxMag      : EnvKind → Nat
  bendDiv     : Nat
  periodFn    : Nat → Tone → Int → Int → Int
  patches     : Fin 12 → Option Patch
  sampleLens  : List Nat
  beyondTable : Nat → Value
deriving Inhabited

/-- The configuration the machine runs under. Nothing can be proved of its fields (log 4). -/
opaque Config.current : Config

end Sys2Proof
end

