-- ==== Sys2Proof/WellFormed.lean ====
section
/-! DEFINITION. When a term of `Instr` is a command of the block. Every operand's range is in its type (spec R62); the
one condition left is that an envelope command does not name the DPCM channel, which holds no envelope (R62, R67). -/

namespace Sys2Proof

/-- The channel and kind an envelope command (formats E0, EI, EX, EXI of spec R61) addresses. -/
def Instr.envelope? : Instr → Option (Channel × EnvKind)
  | .etrig ch k => some (ch, k)
  | .erel ch k => some (ch, k)
  | .eadv ch k => some (ch, k)
  | .eslen ch k _ => some (ch, k)
  | .esloop ch k _ => some (ch, k)
  | .esrel ch k _ => some (ch, k)
  | .esdiv ch k _ => some (ch, k)
  | .esval ch k _ _ => some (ch, k)
  | .eldval ch k _ _ => some (ch, k)
  | .estep ch k => some (ch, k)
  | .egraw ch k => some (ch, k)
  | .egstate ch k => some (ch, k)
  | .eglen ch k => some (ch, k)
  | .egloop ch k => some (ch, k)
  | .egrel ch k => some (ch, k)
  | .egdiv ch k => some (ch, k)
  | .egval ch k _ => some (ch, k)
  | .ctrig _ _ _ _ => none
  | .crel _ => none
  | .cbend _ _ => none
  | .ckeyt _ _ => none
  | .cvsens _ _ => none
  | .cupd _ => none
  | .frame => none

/-- The check of step (3) of spec R65: an envelope command addresses an envelope that exists. -/
def Instr.wf (i : Instr) : Bool :=
  match i.envelope? with
  | some (ch, _) => ch != .dmc
  | none => true

/-- A term is a command of the block (spec R62, R65). -/
abbrev Instr.WellFormed (i : Instr) : Prop := i.wf = true

end Sys2Proof
end

