-- ==== Sys2Proof/Decode.lean ====
section
/-! DEFINITION. The command word (spec R60 to R65): its fields, the opcode map, the formats, the decoder (total on 64-bit
words, illegal words named by their cause) and the encoder. -/

namespace Sys2Proof

/-! ### The fields of a word (spec R60) -/

def opcOf (w : CommandWord) : BitVec 8 := w.extractLsb' 56 8
def chOf (w : CommandWord) : BitVec 3 := w.extractLsb' 53 3
def envOf (w : CommandWord) : BitVec 2 := w.extractLsb' 51 2
def idxOf (w : CommandWord) : BitVec 6 := w.extractLsb' 45 6
def rsvOf (w : CommandWord) : BitVec 13 := w.extractLsb' 32 13
def immOf (w : CommandWord) : BitVec 32 := w.extractLsb' 0 32

/-- A word from its six fields, OPC most significant (spec R60). -/
def packWord (opc : BitVec 8) (ch : BitVec 3) (env : BitVec 2) (idx : BitVec 6) (rsv : BitVec 13) (imm : BitVec 32) :
    CommandWord :=
  opc ++ ch ++ env ++ idx ++ rsv ++ imm

/-! ### Operand codes (spec R12) -/

/-- The channel with an index; all eight are used (spec R12, R62). -/
def Channel.ofCode (c : BitVec 3) : Channel :=
  match c.toNat with
  | 0 => .p1
  | 1 => .p2
  | 2 => .tri
  | 3 => .noi
  | 4 => .dmc
  | 5 => .v1
  | 6 => .v2
  | _ => .saw

/-- The index of a channel (spec R12). -/
def Channel.code : Channel → BitVec 3
  | .p1 => 0
  | .p2 => 1
  | .tri => 2
  | .noi => 3
  | .dmc => 4
  | .v1 => 5
  | .v2 => 6
  | .saw => 7

/-- The envelope kind with a code; all four are used (spec R12, R62). -/
def EnvKind.ofCode (c : BitVec 2) : EnvKind :=
  match c.toNat with
  | 0 => .vol
  | 1 => .duty
  | 2 => .arp
  | _ => .pitch

/-- The code of an envelope kind (spec R12). -/
def EnvKind.code : EnvKind → BitVec 2
  | .vol => 0
  | .duty => 1
  | .arp => 2
  | .pitch => 3

/-- The table index that IDX names (spec R60, R62). -/
def indexOfCode (c : BitVec 6) : Fin 64 := ⟨c.toNat, c.isLt⟩

/-- The IDX field of a table index. -/
def indexCode (i : Fin 64) : BitVec 6 := BitVec.ofNat 6 i.val

/-- The number the response carries for an illegal word (spec R171). -/
def Illegal.code : Illegal → BitVec 32
  | .reservedOpcode => 1
  | .reservedField => 2
  | .noSuchEnvelope => 3

/-! ### Formats and the opcode map (spec R61, R64) -/

/-- The nine formats (spec R61). -/
inductive Format
  | e0 | ei | ex | exi | c0 | ci | cf | ct | g0
deriving DecidableEq, Repr

def Format.usesCh : Format → Bool
  | .g0 => false
  | .e0 | .ei | .ex | .exi | .c0 | .ci | .cf | .ct => true

def Format.usesEnv : Format → Bool
  | .e0 | .ei | .ex | .exi => true
  | .c0 | .ci | .cf | .ct | .g0 => false

def Format.usesIdx : Format → Bool
  | .ex | .exi => true
  | .e0 | .ei | .c0 | .ci | .cf | .ct | .g0 => false

/-- The bits of IMM that a format requires to be zero (spec R61). -/
def Format.immZero : Format → BitVec 32
  | .ei | .exi | .ci => 0x00000000
  | .e0 | .ex | .c0 | .g0 => 0xFFFFFFFF
  | .cf => 0xFFFFFFFE
  | .ct => 0xFFFE8080

/-- The 24 assigned opcodes (spec R64). -/
inductive Opcode
  | etrig | erel | eadv | eslen | esloop | esrel | esdiv | esval | eldval | estep | egraw | egstate
  | eglen | egloop | egrel | egdiv | egval | ctrig | crel | cbend | ckeyt | cvsens | cupd | frame
deriving DecidableEq, Repr

/-- The opcode map, read (spec R64). -/
def Opcode.ofCode (c : BitVec 8) : Option Opcode :=
  match c.toNat with
  | 0x10 => some .etrig
  | 0x11 => some .erel
  | 0x12 => some .eadv
  | 0x14 => some .eslen
  | 0x15 => some .esloop
  | 0x16 => some .esrel
  | 0x17 => some .esdiv
  | 0x18 => some .esval
  | 0x19 => some .eldval
  | 0x20 => some .estep
  | 0x21 => some .egraw
  | 0x22 => some .egstate
  | 0x24 => some .eglen
  | 0x25 => some .egloop
  | 0x26 => some .egrel
  | 0x27 => some .egdiv
  | 0x28 => some .egval
  | 0x30 => some .ctrig
  | 0x31 => some .crel
  | 0x32 => some .cbend
  | 0x33 => some .ckeyt
  | 0x34 => some .cvsens
  | 0x38 => some .cupd
  | 0x39 => some .frame
  | _ => none

/-- The opcode map, written (spec R64). -/
def Opcode.code : Opcode → BitVec 8
  | .etrig => 0x10
  | .erel => 0x11
  | .eadv => 0x12
  | .eslen => 0x14
  | .esloop => 0x15
  | .esrel => 0x16
  | .esdiv => 0x17
  | .esval => 0x18
  | .eldval => 0x19
  | .estep => 0x20
  | .egraw => 0x21
  | .egstate => 0x22
  | .eglen => 0x24
  | .egloop => 0x25
  | .egrel => 0x26
  | .egdiv => 0x27
  | .egval => 0x28
  | .ctrig => 0x30
  | .crel => 0x31
  | .cbend => 0x32
  | .ckeyt => 0x33
  | .cvsens => 0x34
  | .cupd => 0x38
  | .frame => 0x39

/-- The format of a command (spec R61, R64). -/
def Opcode.format : Opcode → Format
  | .etrig | .erel | .eadv | .estep | .egraw | .egstate | .eglen | .egloop | .egrel | .egdiv => .e0
  | .eslen | .esloop | .esrel | .esdiv => .ei
  | .egval => .ex
  | .esval | .eldval => .exi
  | .crel | .cupd => .c0
  | .cbend => .ci
  | .ckeyt | .cvsens => .cf
  | .ctrig => .ct
  | .frame => .g0

/-! ### Immediates of format CT and CF (spec R63) -/

def noteOf (imm : BitVec 32) : BitVec 7 := imm.extractLsb' 0 7
def velOf (imm : BitVec 32) : BitVec 7 := imm.extractLsb' 8 7
def rtOf (imm : BitVec 32) : Bool := imm.getLsbD 16
def flagOf (imm : BitVec 32) : Bool := imm.getLsbD 0

/-- IMM of `CTRIG`: NOTE in 6:0, VEL in 14:8, RT in 16 (spec R63). -/
def ctImm (note vel : BitVec 7) (rt : Bool) : BitVec 32 :=
  (0 : BitVec 15) ++ BitVec.ofBool rt ++ (0 : BitVec 1) ++ vel ++ (0 : BitVec 1) ++ note

/-- IMM of format CF: the flag in bit 0 (spec R63). -/
def cfImm (b : Bool) : BitVec 32 := (0 : BitVec 31) ++ BitVec.ofBool b

/-! ### The decoder (spec R65) -/

/-- Step (2) of spec R65: RSV and every field the format does not use are zero. -/
def Format.fieldsOk (f : Format) (w : CommandWord) : Bool :=
  (rsvOf w == 0) && (f.usesCh || chOf w == 0) && (f.usesEnv || envOf w == 0) && (f.usesIdx || idxOf w == 0)
    && (immOf w &&& f.immZero == 0)

/-- The operands of a command, taken from the fields its format uses (spec R61, R63). -/
def Opcode.operands (o : Opcode) (w : CommandWord) : Instr :=
  let ch := Channel.ofCode (chOf w)
  let k := EnvKind.ofCode (envOf w)
  let i := indexOfCode (idxOf w)
  let n := immOf w
  match o with
  | .etrig => .etrig ch k
  | .erel => .erel ch k
  | .eadv => .eadv ch k
  | .eslen => .eslen ch k n
  | .esloop => .esloop ch k n
  | .esrel => .esrel ch k n
  | .esdiv => .esdiv ch k n
  | .esval => .esval ch k i n
  | .eldval => .eldval ch k i n
  | .estep => .estep ch k
  | .egraw => .egraw ch k
  | .egstate => .egstate ch k
  | .eglen => .eglen ch k
  | .egloop => .egloop ch k
  | .egrel => .egrel ch k
  | .egdiv => .egdiv ch k
  | .egval => .egval ch k i
  | .ctrig => .ctrig ch (noteOf n) (velOf n) (rtOf n)
  | .crel => .crel ch
  | .cbend => .cbend ch n
  | .ckeyt => .ckeyt ch (flagOf n)
  | .cvsens => .cvsens ch (flagOf n)
  | .cupd => .cupd ch
  | .frame => .frame

/-- The decoder: the three checks of spec R65 in their order; the first that fails gives the cause. -/
def decode (w : CommandWord) : Except Illegal Instr :=
  match Opcode.ofCode (opcOf w) with
  | none => .error .reservedOpcode
  | some o =>
    if o.format.fieldsOk w then
      let i := o.operands w
      if i.wf then .ok i else .error .noSuchEnvelope
    else .error .reservedField

/-! ### The encoder (spec R60, R61, R63, R64) -/

/-- The opcode of a command (spec R64). -/
def Instr.opcode : Instr → Opcode
  | .etrig _ _ => .etrig
  | .erel _ _ => .erel
  | .eadv _ _ => .eadv
  | .eslen _ _ _ => .eslen
  | .esloop _ _ _ => .esloop
  | .esrel _ _ _ => .esrel
  | .esdiv _ _ _ => .esdiv
  | .esval _ _ _ _ => .esval
  | .eldval _ _ _ _ => .eldval
  | .estep _ _ => .estep
  | .egraw _ _ => .egraw
  | .egstate _ _ => .egstate
  | .eglen _ _ => .eglen
  | .egloop _ _ => .egloop
  | .egrel _ _ => .egrel
  | .egdiv _ _ => .egdiv
  | .egval _ _ _ => .egval
  | .ctrig _ _ _ _ => .ctrig
  | .crel _ => .crel
  | .cbend _ _ => .cbend
  | .ckeyt _ _ => .ckeyt
  | .cvsens _ _ => .cvsens
  | .cupd _ => .cupd
  | .frame => .frame

/-- A word of format E0 (spec R61). -/
def wordE0 (o : Opcode) (ch : Channel) (k : EnvKind) : CommandWord := packWord o.code ch.code k.code 0 0 0
/-- A word of format EI (spec R61). -/
def wordEI (o : Opcode) (ch : Channel) (k : EnvKind) (n : Value) : CommandWord := packWord o.code ch.code k.code 0 0 n
/-- A word of format EXI; of format EX with `n = 0` (spec R61). -/
def wordEXI (o : Opcode) (ch : Channel) (k : EnvKind) (i : Fin 64) (n : Value) : CommandWord :=
  packWord o.code ch.code k.code (indexCode i) 0 n
/-- A word of format CI, CF or CT with its immediate; of format C0 with `n = 0` (spec R61). -/
def wordCI (o : Opcode) (ch : Channel) (n : Value) : CommandWord := packWord o.code ch.code 0 0 0 n

/-- The word of a command. -/
def encode : Instr → CommandWord
  | .etrig ch k => wordE0 .etrig ch k
  | .erel ch k => wordE0 .erel ch k
  | .eadv ch k => wordE0 .eadv ch k
  | .eslen ch k n => wordEI .eslen ch k n
  | .esloop ch k n => wordEI .esloop ch k n
  | .esrel ch k n => wordEI .esrel ch k n
  | .esdiv ch k n => wordEI .esdiv ch k n
  | .esval ch k i n => wordEXI .esval ch k i n
  | .eldval ch k i n => wordEXI .eldval ch k i n
  | .estep ch k => wordE0 .estep ch k
  | .egraw ch k => wordE0 .egraw ch k
  | .egstate ch k => wordE0 .egstate ch k
  | .eglen ch k => wordE0 .eglen ch k
  | .egloop ch k => wordE0 .egloop ch k
  | .egrel ch k => wordE0 .egrel ch k
  | .egdiv ch k => wordE0 .egdiv ch k
  | .egval ch k i => wordEXI .egval ch k i 0
  | .ctrig ch note vel rt => wordCI .ctrig ch (ctImm note vel rt)
  | .crel ch => wordCI .crel ch 0
  | .cbend ch n => wordCI .cbend ch n
  | .ckeyt ch b => wordCI .ckeyt ch (cfImm b)
  | .cvsens ch b => wordCI .cvsens ch (cfImm b)
  | .cupd ch => wordCI .cupd ch 0
  | .frame => packWord Opcode.frame.code 0 0 0 0 0

/-- The command word whose low `nbits` bits are those of `w` and whose other bits are zero; none for a length that is
no command's (spec R68; log 16). -/
def tableWord? (nbits w : Nat) : Option CommandWord :=
  if nbits ≤ 64 then some (BitVec.ofNat 64 (w % 2 ^ nbits)) else none

/-- What the decoder reads from a word numbered as spec/opcode_table.json numbers it (bit 0 least significant, R60). -/
def decodeTableWord (nbits w : Nat) : Option Instr :=
  match tableWord? nbits w with
  | none => none
  | some word =>
    match decode word with
    | .ok i => some i
    | .error _ => none

end Sys2Proof
end

