-- ==== Sys2Proof/Machine/State.lean ====
section
/-! DEFINITION. The state of the block (spec R13 to R29), its ports (R42, R43, R66), the reasons a step can stop, and
the state after reset (R36, R186, R187). -/

namespace Sys2Proof.Machine

/-- The non-DPCM channels, those that hold envelopes (spec R13 (a)). -/
inductive Voice
  | p1 | p2 | tri | noi | v1 | v2 | saw
deriving DecidableEq, Repr

/-- The envelope state (spec R21). -/
inductive EnvState
  | initial | release | off
deriving DecidableEq, Repr

/-- One envelope (spec R14, R16 to R21). `minVal` and `maxVal` are configuration (R15). The ranges of the five counters
are the invariants INV1 to INV3 (R30 to R32, Safety.lean). -/
structure Envelope where
  values       : Vector Value 64
  loopPoint    : Nat
  releasePoint : Nat
  length       : Nat
  speedDivider : Nat
  step         : Nat
  state        : EnvState
deriving DecidableEq, Repr

/-- The attributes every channel has (spec R23 to R27). -/
structure Chan where
  baseNote            : BitVec 7
  bend                : Value
  vel                 : BitVec 7
  keyTrackEnabled     : Bool
  velocitySensEnabled : Bool
deriving DecidableEq, Repr

/-- The state of the block (spec R13): 28 envelopes (four for each voice), the attributes of eight channels, the coarse
period shadow of the two Pulse channels (R28), the two pending flags of the DPCM channel (R29). -/
structure Block where
  envs           : Vector Envelope 28
  chans          : Vector Chan 8
  prevHi         : Vector (Option (BitVec 3)) 2
  pendingTrigger : Bool
  pendingRelease : Bool
deriving DecidableEq, Repr

/-- The status of a response (spec R66). -/
inductive Status
  | ok | illegal
deriving DecidableEq, Repr

/-- A response: a status and a 32-bit signed value (spec R66). -/
structure Response where
  status : Status
  value  : Value
deriving DecidableEq, Repr

/-- One pair of the write trace (spec R43). -/
structure ApuWrite where
  addr : Addr
  data : Byte
deriving DecidableEq, Repr

/-- The machine: the block and its ports. `commands` holds the words the host has issued and the block has not executed,
next first (spec R42, R35; log 1); `responses` and `trace` are what the block has put out so far, oldest first (R66,
R43, R199; log 3). -/
structure State where
  block     : Block
  commands  : List CommandWord
  responses : List Response
  trace     : List ApuWrite
deriving DecidableEq, Repr

/-- The reasons the machine stops with a fault: none. "No operation of the block raises an exception, traps, stalls or
retries" (spec R166), and an illegal word is answered, not a stop (R170). -/
inductive Fault
deriving DecidableEq, Repr

/-- The reasons a step is refused. -/
inductive Refusal
  /-- Raised by an arm of `exec` whose command has no meaning yet. Safe: the run stops there. No arm raises it now. -/
  | notModelled (mnemonic : String)
deriving DecidableEq, Repr

/-- An envelope after reset (spec R36). -/
def Envelope.reset : Envelope where
  values := Vector.replicate 64 0
  loopPoint := 0
  releasePoint := 1
  length := 1
  speedDivider := 1
  step := 0
  state := .off

/-- A channel's attributes after reset (spec R36): note 64, no bend, velocity 127, both flags set. -/
def Chan.reset : Chan where
  baseNote := 64
  bend := 0
  vel := 127
  keyTrackEnabled := true
  velocitySensEnabled := true

/-- The block after reset (spec R36). -/
def Block.reset : Block where
  envs := Vector.replicate 28 Envelope.reset
  chans := Vector.replicate 8 Chan.reset
  prevHi := Vector.replicate 2 none
  pendingTrigger := false
  pendingRelease := false

/-- The machine after reset: the block as R36 says, no command issued, nothing put out (spec R186; log 1, 3). -/
def State.reset : State where
  block := Block.reset
  commands := []
  responses := []
  trace := []

end Sys2Proof.Machine
end

