-- ==== Sys2Proof/Machine/Ops.lean ====
section
/-! DEFINITION. The shared operations: the integer arithmetic of spec R10, the reads and writes of R11 (`env[c][k].f`,
`chan[c].f`, `MemRead`/`MemWrite(TAB(c,k), i, 1)`, `ApuWrite`, `return`, `raise Illegal`), and the configuration as the
rules use it. -/

namespace Sys2Proof.Machine

/-! ### Arithmetic (spec R10) -/

/-- `clamp(x, lo, hi)` (spec R10). -/
def clamp (x lo hi : Int) : Int := if x < lo then lo else if x > hi then hi else x

/-- `ceil(a / b)` for `b > 0`, exact over the rationals (spec R10, R126). -/
def ceilDiv (a b : Int) : Int := -((-a) / b)

/-- `zext_8` of a shorter field (spec R9). -/
def zext8 {n : Nat} (x : BitVec n) : Byte := x.setWidth 8

/-! ### Channels and voices (spec R12, R13) -/

/-- The voice a channel is, if it holds envelopes; Dpcm "holds none" (spec R13). -/
def voice? : Channel → Option Voice
  | .p1 => some .p1
  | .p2 => some .p2
  | .tri => some .tri
  | .noi => some .noi
  | .dmc => none
  | .v1 => some .v1
  | .v2 => some .v2
  | .saw => some .saw

/-- The channel a voice is. -/
def voiceChannel : Voice → Channel
  | .p1 => .p1
  | .p2 => .p2
  | .tri => .tri
  | .noi => .noi
  | .v1 => .v1
  | .v2 => .v2
  | .saw => .saw

/-- The index of a channel in the block's eight attribute records (spec R12). -/
def chanIndex : Channel → Fin 8
  | .p1 => 0
  | .p2 => 1
  | .tri => 2
  | .noi => 3
  | .dmc => 4
  | .v1 => 5
  | .v2 => 6
  | .saw => 7

/-- The place of a voice's first envelope among the 28. -/
def voiceBase : Voice → Nat
  | .p1 => 0
  | .p2 => 4
  | .tri => 8
  | .noi => 12
  | .v1 => 16
  | .v2 => 20
  | .saw => 24

/-- The code of a kind as a number (spec R12). -/
def kindIndex : EnvKind → Nat
  | .vol => 0
  | .duty => 1
  | .arp => 2
  | .pitch => 3

/-- The place of `env[c][k]` among the 28 envelopes. -/
def slot (v : Voice) (k : EnvKind) : Fin 28 :=
  ⟨voiceBase v + kindIndex k, by cases v <;> cases k <;> decide⟩

/-! ### Field reads and writes (spec R11) -/

/-- `env[c][k]`. -/
def Block.env (b : Block) (v : Voice) (k : EnvKind) : Envelope := b.envs[(slot v k).val]

/-- `env[c][k] <- e`. -/
def Block.setEnv (b : Block) (v : Voice) (k : EnvKind) (e : Envelope) : Block :=
  { b with envs := b.envs.set (slot v k).val e }

/-- `chan[c]`. -/
def Block.chan (b : Block) (ch : Channel) : Chan := b.chans[(chanIndex ch).val]

/-- `chan[c] <- a`. -/
def Block.setChan (b : Block) (ch : Channel) (a : Chan) : Block :=
  { b with chans := b.chans.set (chanIndex ch).val a }

/-- `chan[p].prevHi` of Pulse `p` (spec R28). -/
def Block.prevHiOf (b : Block) (p : Fin 2) : Option (BitVec 3) := b.prevHi[p.val]

/-- `chan[p].prevHi <- hi`. -/
def Block.setPrevHi (b : Block) (p : Fin 2) (hi : BitVec 3) : Block :=
  { b with prevHi := b.prevHi.set p.val (some hi) }

/-- `MemRead(TAB(c,k), i, 1)` (spec R11, R41). An index beyond 63, which INV3 rules out (R32), reads a free value
(log 8). -/
def Envelope.readValue (cfg : Config) (e : Envelope) (i : Nat) : Value :=
  if h : i < 64 then e.values[i] else cfg.beyondTable i

/-- `MemRead(TAB(c,k), i, 1)` for the index of an IDX field, always in range (spec R41, R62). -/
def Envelope.value (e : Envelope) (i : Fin 64) : Value := e.values[i.val]

/-- `MemWrite(TAB(c,k), i, 1, n)` (spec R11, R41). -/
def Envelope.writeValue (e : Envelope) (i : Fin 64) (n : Value) : Envelope :=
  { e with values := e.values.set i.val n }

/-! ### Responses (spec R66, R170) -/

/-- The outcomes of a meaning. -/
abbrev Result := Host.Outcome State Fault Refusal

/-- A legal command ends: the block is `b`, `ws` joins the trace, the response is `(OK, v)` (spec R43, R66). -/
def State.complete (s : State) (b : Block) (ws : List ApuWrite) (v : Value) : State :=
  { s with block := b, trace := s.trace ++ ws, responses := s.responses ++ [⟨.ok, v⟩] }

/-- `raise Illegal(cause)`: no state changes, no write is emitted, the response is `(ILLEGAL, cause)` and the block is
ready for the next command. This is all that an exception of this block is: nothing is saved, there is no handler and
no return from one (spec R66, R170, R175, R176). -/
def State.raiseIllegal (s : State) (c : Illegal) : State :=
  { s with responses := s.responses ++ [⟨.illegal, c.code⟩] }

/-! ### Configuration (spec R5, R15, R46 to R49) -/

/-- MINVAL[k] (spec R15). -/
def minVal (cfg : Config) (k : EnvKind) : Int := -(cfg.minMag k : Int)

/-- MAXVAL[k] (spec R15). -/
def maxVal (cfg : Config) (k : EnvKind) : Int := cfg.maxMag k

/-- PERIODFN[t](n12, bend) under the configuration's BEND_DIV (spec R121, R128). -/
def period (cfg : Config) (t : Tone) (n12 bend : Int) : Int := cfg.periodFn cfg.bendDiv t n12 bend

/-- The room a sample takes in the DPCM space: its length padded to 64 bytes (spec R47). -/
def paddedLen (len : Nat) : Nat := (len + 63) &&& 0xFFC0

/-- `SampleLen(i)`: none where the table has no sample `i` (spec R46). -/
def sampleLen (cfg : Config) (i : Nat) : Option Nat := cfg.sampleLens[i]?

/-- `SampleAddr(i)`: "cumulative padded size of samples 0..i-1"; none where the table has no sample `i` (spec R46,
R47). -/
def sampleAddr (cfg : Config) (i : Nat) : Option Nat :=
  if i < cfg.sampleLens.length then some (((cfg.sampleLens.take i).map paddedLen).sum) else none

/-- `PatchOf(note mod 12)` (spec R46, R152). -/
def patchOfNote (cfg : Config) (note : BitVec 7) : Option Patch :=
  cfg.patches ⟨note.toNat % 12, Nat.mod_lt _ (by decide)⟩

end Sys2Proof.Machine
end

