-- ==== Sys2Proof/Machine/Flags.lean ====
section
/-! DEFINITION. The block's one status flag, the `state` of an envelope (spec R21): its codes and its changes (R84). -/

namespace Sys2Proof.Machine

/-- The code of a state (spec R12, R87). -/
def stateCode : EnvState → Value
  | .initial => 0
  | .release => 1
  | .off => 2

/-- The state `Release()` enters: Release if the release point is below the length, else Off (spec R82). -/
def releaseState (e : Envelope) : EnvState := if e.releasePoint < e.length then .release else .off

/-- The step of `EADV` after the increment and, in Initial, the loop wrap (spec R83). -/
def advancedStep (e : Envelope) : Nat :=
  if e.state = .initial ∧ e.step + 1 ≥ e.releasePoint * e.speedDivider then e.loopPoint * e.speedDivider
  else e.step + 1

/-- The state after `EADV`: Off once the advanced step reaches the length; Off stays Off (spec R83). -/
def advancedState (e : Envelope) : EnvState :=
  if e.state ≠ .off ∧ advancedStep e ≥ e.length * e.speedDivider then .off else e.state

/-- The gate of `CUPD`: the arpeggio envelope is Off (spec R141). -/
def gateOff (b : Block) (v : Voice) : Bool := (b.env v .arp).state == .off

end Sys2Proof.Machine
end

