-- ==== Sys2Proof/Machine/Operands.lean ====
section
/-! DEFINITION. The operand forms (spec R61 to R63): the envelope named by CH and ENV, and the signed immediate. The
flag and CTRIG immediates are taken apart by the decoder. -/

namespace Sys2Proof.Machine

/-- `sext_32(IMM)` (spec R9, R63). -/
def operand (n : Value) : Int := n.toInt

/-- A meaning over the envelopes of channel `ch`. With `CH = 4` there is no envelope and the command is illegal, cause 3
(spec R62, R65, R67); the decoder never gives such a term (log 10). -/
def onVoice (ch : Channel) (s : State) (f : Voice → State) : Result :=
  match voice? ch with
  | none => .next (s.raiseIllegal .noSuchEnvelope)
  | some v => .next (f v)

/-- A command that replaces `env[CH][ENV]` and returns 0, emitting no write (spec R66, R80, R96). -/
def updateEnv (ch : Channel) (k : EnvKind) (s : State) (f : Envelope → Envelope) : Result :=
  onVoice ch s fun v => s.complete (s.block.setEnv v k (f (s.block.env v k))) [] 0

/-- A command that returns a value read from `env[CH][ENV]` and changes nothing (spec R85 to R87, R103 to R107). -/
def readEnv (ch : Channel) (k : EnvKind) (s : State) (f : Envelope → Value) : Result :=
  onVoice ch s fun v => s.complete s.block [] (f (s.block.env v k))

/-- A command that changes the attributes of channel `CH` and returns 0 (spec R116, R121 to R123). -/
def updateChan (ch : Channel) (s : State) (f : Chan → Chan) : Result :=
  .next (s.complete (s.block.setChan ch (f (s.block.chan ch))) [] 0)

/-- A response value from a non-negative counter; it fits in every reachable state (spec R66; log 9). -/
def counterValue (n : Nat) : Value := BitVec.ofNat 32 n

end Sys2Proof.Machine
end

