-- ==== Sys2Proof/Machine/Playback.lean ====
section
/-! DEFINITION. Envelope playback: ETRIG, EREL, EADV, ESTEP, EGRAW, EGSTATE (spec 40_envelope_playback.md). -/

namespace Sys2Proof.Machine

/-- `Trigger()` (spec R81). -/
def Envelope.trigger (e : Envelope) : Envelope := { e with state := .initial, step := 0 }

/-- `Release()`, unconditional on the prior state (spec R82). -/
def Envelope.release (e : Envelope) : Envelope :=
  { e with step := e.releasePoint * e.speedDivider, state := releaseState e }

/-- The envelope after `GetValueAndAdvance()` (spec R83). -/
def Envelope.advance (e : Envelope) : Envelope := { e with step := advancedStep e, state := advancedState e }

/-- What `GetValueAndAdvance()` returns: 0 if the state is Off after the transition, else the entry that `step` denoted
before the increment (spec R83). -/
def Envelope.advanceValue (cfg : Config) (e : Envelope) : Value :=
  if advancedState e = .off then 0 else e.readValue cfg (e.step / e.speedDivider)

/-- `GetStep()`: -1 if Off, else the index the next `EADV` reads (spec R85). -/
def stepValue (e : Envelope) : Value := if e.state = .off then -1 else counterValue (e.step / e.speedDivider)

/-- `min(step, 2^31 - 1)` (spec R86). -/
def rawStepValue (e : Envelope) : Value := counterValue (min e.step (2 ^ 31 - 1))

/-- ETRIG (spec R81). -/
def execEtrig (ch : Channel) (k : EnvKind) (s : State) : Result := updateEnv ch k s Envelope.trigger

/-- EREL (spec R82). -/
def execErel (ch : Channel) (k : EnvKind) (s : State) : Result := updateEnv ch k s Envelope.release

/-- EADV (spec R83). -/
def execEadv (ch : Channel) (k : EnvKind) (s : State) : Result :=
  onVoice ch s fun v =>
    let e := s.block.env v k
    s.complete (s.block.setEnv v k e.advance) [] (e.advanceValue Config.current)

/-- ESTEP (spec R85). -/
def execEstep (ch : Channel) (k : EnvKind) (s : State) : Result := readEnv ch k s stepValue

/-- EGRAW (spec R86). -/
def execEgraw (ch : Channel) (k : EnvKind) (s : State) : Result := readEnv ch k s rawStepValue

/-- EGSTATE (spec R87). -/
def execEgstate (ch : Channel) (k : EnvKind) (s : State) : Result := readEnv ch k s fun e => stateCode e.state

end Sys2Proof.Machine
end

