-- ==== Sys2Proof/Machine/Control.lean ====
section
/-! DEFINITION. Channel control: CTRIG, CREL, CBEND, CKEYT, CVSENS (spec 42_channel_control.md, section 2). -/

namespace Sys2Proof.Machine

/-- The four kinds in the order of the document's fan-outs: VOL, DUTY, ARP, PITCH (spec R117, R119). -/
def allKinds : List EnvKind := [.vol, .duty, .arp, .pitch]

/-- `for k in VOL, DUTY, ARP, PITCH: env[CH][k] <- f env[CH][k]` (spec R117, R119). -/
def Block.mapVoice (b : Block) (v : Voice) (f : Envelope → Envelope) : Block :=
  allKinds.foldl (fun b k => b.setEnv v k (f (b.env v k))) b

/-- FIXED_NOTE (spec R4). -/
def fixedNote : BitVec 7 := 64

/-- The base note `CTRIG` stores: the note played, or FIXED_NOTE when key-track is off (spec R117). -/
def trackedNote (c : Chan) (note : BitVec 7) : BitVec 7 := if c.keyTrackEnabled then note else fixedNote

/-- CTRIG on a voice (spec R117). -/
def trigVoice (v : Voice) (note vel : BitVec 7) (rt : Bool) (b : Block) : Block :=
  let c := b.chan (voiceChannel v)
  let c := { c with baseNote := trackedNote c note }
  if rt then (b.setChan (voiceChannel v) { c with vel := vel }).mapVoice v Envelope.trigger
  else b.setChan (voiceChannel v) c

/-- CTRIG on the DPCM channel: captures the note and records a pending trigger; VEL, RT and the key-track flag are
ignored (spec R118). -/
def trigDpcm (note : BitVec 7) (b : Block) : Block :=
  { b.setChan .dmc { b.chan .dmc with baseNote := note } with pendingTrigger := true }

/-- CTRIG (spec R117, R118). -/
def execCtrig (ch : Channel) (note vel : BitVec 7) (rt : Bool) (s : State) : Result :=
  match voice? ch with
  | some v => .next (s.complete (trigVoice v note vel rt s.block) [] 0)
  | none => .next (s.complete (trigDpcm note s.block) [] 0)

/-- CREL: the four envelopes' `Release()` (spec R119); on the DPCM channel a pending release (R120). -/
def execCrel (ch : Channel) (s : State) : Result :=
  match voice? ch with
  | some v => .next (s.complete (s.block.mapVoice v Envelope.release) [] 0)
  | none => .next (s.complete { s.block with pendingRelease := true } [] 0)

/-- CBEND: stores the operand, in units of 1/65536 semitone (spec R121, R24). -/
def execCbend (ch : Channel) (n : Value) (s : State) : Result := updateChan ch s fun c => { c with bend := n }

/-- CKEYT (spec R122). -/
def execCkeyt (ch : Channel) (b : Bool) (s : State) : Result := updateChan ch s fun c => { c with keyTrackEnabled := b }

/-- CVSENS (spec R123). -/
def execCvsens (ch : Channel) (b : Bool) (s : State) : Result :=
  updateChan ch s fun c => { c with velocitySensEnabled := b }

end Sys2Proof.Machine
end

