-- ==== Sys2Proof/Machine/EnvConfig.lean ====
section
/-! DEFINITION. Envelope configuration: the coupled setters, the divider, the value table and the read-backs (spec
41_envelope_config.md). -/

namespace Sys2Proof.Machine

/-- An operand clamped to a range of naturals (spec R10, R96). -/
def clampNat (n : Value) (lo hi : Nat) : Nat := (clamp (operand n) lo hi).toNat

/-- The assignments of `SetLength`: release point down to the length, then loop point below it (spec R97). -/
def Envelope.setLength (e : Envelope) (n : Value) : Envelope :=
  let len := clampNat n 1 64
  let rel := if e.releasePoint > len then len else e.releasePoint
  let loop := if e.loopPoint ≥ rel then rel - 1 else e.loopPoint
  { e with length := len, releasePoint := rel, loopPoint := loop }

/-- The assignments of `SetLoop`: release point up to the loop point + 1, then length up to cover it (spec R98). -/
def Envelope.setLoop (e : Envelope) (n : Value) : Envelope :=
  let loop := clampNat n 0 63
  let rel := if e.releasePoint ≤ loop then loop + 1 else e.releasePoint
  let len := if e.length < rel then rel else e.length
  { e with loopPoint := loop, releasePoint := rel, length := len }

/-- The assignments of `SetRelease`: length up to cover it, then loop point below it (spec R99). -/
def Envelope.setRelease (e : Envelope) (n : Value) : Envelope :=
  let rel := clampNat n 1 64
  let len := if e.length < rel then rel else e.length
  let loop := if e.loopPoint ≥ rel then rel - 1 else e.loopPoint
  { e with releasePoint := rel, length := len, loopPoint := loop }

/-- `SetSpeedDivider`: multiply first, then floor, then clamp to `[0, length*new - 1]` (spec R100). -/
def Envelope.setDivider (e : Envelope) (n : Value) : Envelope :=
  let new := clampNat n 1 8
  { e with step := min (e.step * new / e.speedDivider) (e.length * new - 1), speedDivider := new }

/-- The value `ESVAL` stores: the operand clamped to the kind's bounds (spec R101). -/
def editValue (cfg : Config) (k : EnvKind) (n : Value) : Value :=
  BitVec.ofInt 32 (clamp (operand n) (minVal cfg k) (maxVal cfg k))

/-- ESLEN (spec R97). -/
def execEslen (ch : Channel) (k : EnvKind) (n : Value) (s : State) : Result := updateEnv ch k s (·.setLength n)

/-- ESLOOP (spec R98). -/
def execEsloop (ch : Channel) (k : EnvKind) (n : Value) (s : State) : Result := updateEnv ch k s (·.setLoop n)

/-- ESREL (spec R99). -/
def execEsrel (ch : Channel) (k : EnvKind) (n : Value) (s : State) : Result := updateEnv ch k s (·.setRelease n)

/-- ESDIV (spec R100). -/
def execEsdiv (ch : Channel) (k : EnvKind) (n : Value) (s : State) : Result := updateEnv ch k s (·.setDivider n)

/-- ESVAL (spec R101). -/
def execEsval (ch : Channel) (k : EnvKind) (i : Fin 64) (n : Value) (s : State) : Result :=
  updateEnv ch k s (·.writeValue i (editValue Config.current k n))

/-- ELDVAL: no clamp (spec R102). -/
def execEldval (ch : Channel) (k : EnvKind) (i : Fin 64) (n : Value) (s : State) : Result :=
  updateEnv ch k s (·.writeValue i n)

/-- EGVAL (spec R103). -/
def execEgval (ch : Channel) (k : EnvKind) (i : Fin 64) (s : State) : Result := readEnv ch k s (·.value i)

/-- EGLEN (spec R104). -/
def execEglen (ch : Channel) (k : EnvKind) (s : State) : Result := readEnv ch k s fun e => counterValue e.length

/-- EGLOOP (spec R105). -/
def execEgloop (ch : Channel) (k : EnvKind) (s : State) : Result := readEnv ch k s fun e => counterValue e.loopPoint

/-- EGREL (spec R106). -/
def execEgrel (ch : Channel) (k : EnvKind) (s : State) : Result := readEnv ch k s fun e => counterValue e.releasePoint

/-- EGDIV (spec R107). -/
def execEgdiv (ch : Channel) (k : EnvKind) (s : State) : Result := readEnv ch k s fun e => counterValue e.speedDivider

end Sys2Proof.Machine
end

