-- ==== Sys2Proof/Machine/Apu.lean ====
section
/-! DEFINITION. The chip register space as the block writes it: the register map (spec R44) and the constant bytes of
R5, all at the values the spec gives (it marks them as general knowledge of the chips; log 6). -/

namespace Sys2Proof.Machine

/-- The register symbols of spec R44. -/
inductive ApuReg
  | pVol (p : Fin 2) | pSweep (p : Fin 2) | pLo (p : Fin 2) | pHi (p : Fin 2)
  | tLin | tLo | tHi
  | nVol | nPer
  | dFreq | dLevel | dAddr | dLen
  | apuEn | apuFc
  | vVol (q : Fin 2) | vLo (q : Fin 2) | vHi (q : Fin 2)
  | sVol | sLo | sHi
deriving DecidableEq, Repr

/-- PULSE_STRIDE: "register block offset = channelIndex*4" (spec R4, R44). -/
def pulseOffset (p : Fin 2) : Addr := BitVec.ofNat 16 (4 * p.val)

/-- VRC6_STRIDE: "register block offset = (channelIndex)*0x1000" (spec R4, R44). -/
def vrc6Offset (q : Fin 2) : Addr := BitVec.ofNat 16 (0x1000 * q.val)

/-- The register map (spec R44). -/
def regAddr : ApuReg → Addr
  | .pVol p => 0x4000 + pulseOffset p
  | .pSweep p => 0x4001 + pulseOffset p
  | .pLo p => 0x4002 + pulseOffset p
  | .pHi p => 0x4003 + pulseOffset p
  | .tLin => 0x4008
  | .tLo => 0x400A
  | .tHi => 0x400B
  | .nVol => 0x400C
  | .nPer => 0x400E
  | .dFreq => 0x4010
  | .dLevel => 0x4011
  | .dAddr => 0x4012
  | .dLen => 0x4013
  | .apuEn => 0x4015
  | .apuFc => 0x4017
  | .vVol q => 0x9000 + vrc6Offset q
  | .vLo q => 0x9001 + vrc6Offset q
  | .vHi q => 0x9002 + vrc6Offset q
  | .sVol => 0xB000
  | .sLo => 0xB001
  | .sHi => 0xB002

/-- `ApuWrite(r, b)` (spec R11, R43). -/
def apuWrite (r : ApuReg) (b : Byte) : ApuWrite := ⟨regAddr r, b⟩

/-- CONST_BITS (spec R5, R147). -/
def constBits : Byte := 0x30
/-- LEN_LOAD << 3, the length-load bits of a 2A03 period-high byte (spec R5, R45). -/
def lenLoad : Byte := 0 <<< 3
/-- TRI_ON (spec R5, R148). -/
def triOn : Byte := 0xFF
/-- TRI_SILENT (spec R4, R148). -/
def triSilent : Byte := 0x80
/-- FC_RESET (spec R5, R146). -/
def fcReset : Byte := 0x40
/-- FC_CLOCK (spec R5, R146). -/
def fcClock : Byte := 0xC0
/-- SWEEP_UP (spec R5, R146). -/
def sweepUp : Byte := 0x87
/-- SWEEP_DOWN (spec R5, R146). -/
def sweepDown : Byte := 0x8F
/-- SWEEP_OFF (spec R5, R146). -/
def sweepOff : Byte := 0x0F
/-- VRC6_EN (spec R5, R150). -/
def vrc6En : Byte := 0x80
/-- DMC_ON (spec R5, R152). -/
def dmcOn : Byte := 0x1F
/-- DMC_OFF (spec R5, R152). -/
def dmcOff : Byte := 0x0F
/-- DPCM_LEVEL (spec R4, R152). -/
def dpcmLevel : Byte := 32
/-- NOISE_XOR (spec R4, R149). -/
def noiseXor : BitVec 4 := 0x0F

/-- PMIN (spec R4). -/
def pMin : Int := 8

/-- PMAX[variant] (spec R4, R5). -/
def pMax : Tone → Int
  | .pulse => 2047
  | .triangle => 2047
  | .vrc6Pulse => 4095
  | .vrc6Saw => 4095

/-! ### Register bytes (spec R45, R50) -/

/-- Bits 7:0 of a period, the low register's byte (spec R50). -/
def periodLo (P : Nat) : Byte := BitVec.ofNat 8 P

/-- Bits 10:8 of a period, the coarse period of a 2A03 channel (spec R28, R50). -/
def coarse (P : Nat) : BitVec 3 := BitVec.ofNat 3 (P / 256)

/-- `(LEN_LOAD << 3) | hi`, the byte of `P_HI` and `T_HI` (spec R45, R144, R148). -/
def periodHi (hi : BitVec 3) : Byte := lenLoad ||| zext8 hi

/-- `VRC6_EN | P[11:8]`, the byte of `V_HI` and `S_HI` (spec R45, R150, R151). -/
def vrc6Hi (P : Nat) : Byte := vrc6En ||| zext8 (BitVec.ofNat 4 (P / 256))

/-- `V & 0x0F`, also for a negative volume (spec R10, R147). -/
def volField (V : Int) : Byte := zext8 (BitVec.ofInt 4 V)

/-- `(D << 6) | 0x30 | (V & 0x0F)`, the byte of `P_VOL` (spec R147). -/
def pulseVol (D : BitVec 2) (V : Int) : Byte := (zext8 D <<< 6) ||| constBits ||| volField V

/-- `0x30 | (V & 0x0F)`, the byte of `N_VOL` (spec R149). -/
def noiseVol (V : Int) : Byte := constBits ||| volField V

/-- `(D << 7) | (n ^ 0x0F)`, the byte of `N_PER` (spec R149). -/
def noisePer (D : BitVec 1) (n : BitVec 4) : Byte := (zext8 D <<< 7) ||| zext8 (n ^^^ noiseXor)

/-- `(D << 4) | (V & 0x0F)`, the byte of `V_VOL` (spec R150). -/
def vrc6Vol (D : BitVec 3) (V : Int) : Byte := (zext8 D <<< 4) ||| volField V

/-- `D << 4`, the duty-only byte of `V_VOL` (spec R150). -/
def vrc6DutyOnly (D : BitVec 3) : Byte := zext8 D <<< 4

/-- `(V << 2) & 0x3F`, the byte of `S_VOL` (spec R151). -/
def sawVol (V : Int) : Byte := zext8 (BitVec.ofInt 6 (V * 4))

/-- The byte of `T_LIN` on the active path: silence exactly when the volume is 0 (spec R148). -/
def triLin (V : Int) : Byte := if V = 0 then triSilent else triOn

/-- `(loop << 6) | (pitch & 0x0F)`, the byte of `D_FREQ` (spec R152). -/
def dpcmFreq (pt : Patch) : Byte := (zext8 (BitVec.ofBool pt.loop) <<< 6) ||| zext8 pt.pitch

/-- `(A div 64) & 0xFF`, the byte of `D_ADDR` (spec R51, R152). -/
def dpcmAddr (A : Nat) : Byte := BitVec.ofNat 8 (A / 64)

/-- `(L >> 4) & 0xFF`, the byte of `D_LEN` (spec R152). -/
def dpcmLen (L : Nat) : Byte := BitVec.ofNat 8 (L >>> 4)

end Sys2Proof.Machine
end

