-- ==== Sys2Proof/Machine/Update.lean ====
section
/-! DEFINITION. The internal operations of UpdateAPU (spec R124 to R127) and UpdateAPU of each variant, CUPD and FRAME
(spec 43_update_apu.md). Each is a function of the configuration and the block, so that it can be run under a stated
configuration; `execCupd` and `execFrame` run them under `Config.current`. -/

namespace Sys2Proof.Machine

/-- A block and a value read while changing it. -/
structure Read (α : Type) where
  block : Block
  value : α

/-- A block and the writes emitted while changing it (spec R43). -/
structure Emit where
  block  : Block
  writes : List ApuWrite

/-- `EADV(k)` of spec 42_channel_control.md: the steps of R83 on `env[CH][k]`, with no response. -/
def eadvOn (cfg : Config) (v : Voice) (k : EnvKind) (b : Block) : Read Value :=
  let e := b.env v k
  ⟨b.setEnv v k e.advance, e.advanceValue cfg⟩

/-- `n12 = 12*(baseNote + a) + f`, the note in 1/12 semitone (spec R124). -/
def note12 (c : Chan) (a f : Value) : Int := 12 * ((c.baseNote.toNat : Int) + a.toInt) + f.toInt

/-- The period of a tone variant: PERIODFN clamped to `[8, PMAX]` (spec R124). -/
def tonePeriod (cfg : Config) (t : Tone) (c : Chan) (a f : Value) : Nat :=
  (clamp (period cfg t (note12 c a f) c.bend.toInt) pMin (pMax t)).toNat

/-- `GetPeriod()` on a tone variant: arpeggio, then pitch, each advanced once (spec R124). -/
def getPeriod (cfg : Config) (t : Tone) (v : Voice) (b : Block) : Read Nat :=
  let a := eadvOn cfg v .arp b
  let f := eadvOn cfg v .pitch a.block
  ⟨f.block, tonePeriod cfg t (b.chan (voiceChannel v)) a.value f.value⟩

/-- `(baseNote + a) & 0x0F`, also for a negative sum (spec R125). -/
def noisePeriod (c : Chan) (a : Value) : BitVec 4 := BitVec.ofInt 4 ((c.baseNote.toNat : Int) + a.toInt)

/-- `GetPeriod()` on Noise: the pitch envelope is advanced and its value discarded (spec R125). -/
def getNoisePeriod (cfg : Config) (v : Voice) (b : Block) : Read (BitVec 4) :=
  let a := eadvOn cfg v .arp b
  let f := eadvOn cfg v .pitch a.block
  ⟨f.block, noisePeriod (b.chan (voiceChannel v)) a.value⟩

/-- The volume from the envelope's value: `ceil(v * vel / 127)`, or `v` with velocity sensitivity off (spec R126). -/
def scaledVolume (c : Chan) (x : Value) : Int :=
  if c.velocitySensEnabled then ceilDiv (x.toInt * c.vel.toNat) 127 else x.toInt

/-- `GetVolume()` (spec R126). -/
def getVolume (cfg : Config) (v : Voice) (b : Block) : Read Int :=
  let x := eadvOn cfg v .vol b
  ⟨x.block, scaledVolume (b.chan (voiceChannel v)) x.value⟩

/-- `GetDuty()` on a variant whose duty has `n` bits: the value masked to them; with `n = 0` (Triangle, Vrc6Saw)
discarded (spec R127). -/
def getDuty (cfg : Config) (n : Nat) (v : Voice) (b : Block) : Read (BitVec n) :=
  let d := eadvOn cfg v .duty b
  ⟨d.block, BitVec.ofInt n d.value.toInt⟩

/-! ### Pulse (spec R143 to R147) -/

/-- The five writes of the sweep trick (spec R146). -/
def sweepTrick (p : Fin 2) (up : Bool) : List ApuWrite :=
  [apuWrite .apuFc fcReset,
   apuWrite (.pLo p) (if up then 0xFF else 0x00),
   apuWrite (.pSweep p) (if up then sweepUp else sweepDown),
   apuWrite .apuFc fcClock,
   apuWrite (.pSweep p) sweepOff]

/-- The period writes of the active path: the sweep trick and the low byte when the coarse period moves by exactly one,
else the low byte and, when it moves otherwise or nothing was written before, the high byte (spec R144, R145). -/
def pulsePeriodWrites (p : Fin 2) (prev : Option (BitVec 3)) (P : Nat) : List ApuWrite :=
  let hi := coarse P
  let lo := apuWrite (.pLo p) (periodLo P)
  match prev with
  | none => [lo, apuWrite (.pHi p) (periodHi hi)]
  | some old =>
    if hi.toNat = old.toNat + 1 then sweepTrick p true ++ [lo]
    else if hi.toNat + 1 = old.toNat then sweepTrick p false ++ [lo]
    else if hi = old then [lo]
    else [lo, apuWrite (.pHi p) (periodHi hi)]

/-- `CUPD` on Pulse `p` (spec R143, R144). -/
def cupdPulse (cfg : Config) (p : Fin 2) (v : Voice) (b : Block) : Emit :=
  if gateOff b v then ⟨b, [apuWrite (.pVol p) constBits]⟩
  else
    let P := getPeriod cfg .pulse v b
    let V := getVolume cfg v P.block
    let D := getDuty cfg 2 v V.block
    ⟨D.block.setPrevHi p (coarse P.value),
     pulsePeriodWrites p (b.prevHiOf p) P.value ++ [apuWrite (.pVol p) (pulseVol D.value V.value)]⟩

/-- `CUPD` on Triangle (spec R148). -/
def cupdTriangle (cfg : Config) (b : Block) : Emit :=
  if gateOff b .tri then ⟨b, [apuWrite .tLin triSilent]⟩
  else
    let P := getPeriod cfg .triangle .tri b
    let V := getVolume cfg .tri P.block
    let D := getDuty cfg 0 .tri V.block
    ⟨D.block,
     [apuWrite .tLo (periodLo P.value), apuWrite .tHi (periodHi (coarse P.value)), apuWrite .tLin (triLin V.value)]⟩

/-- `CUPD` on Noise (spec R149). -/
def cupdNoise (cfg : Config) (b : Block) : Emit :=
  if gateOff b .noi then ⟨b, [apuWrite .nVol constBits]⟩
  else
    let n := getNoisePeriod cfg .noi b
    let V := getVolume cfg .noi n.block
    let D := getDuty cfg 1 .noi V.block
    ⟨D.block, [apuWrite .nPer (noisePer D.value n.value), apuWrite .nVol (noiseVol V.value)]⟩

/-- `CUPD` on Vrc6Pulse `q`: on the Off path the duty envelope is advanced (spec R150). -/
def cupdVrc6Pulse (cfg : Config) (q : Fin 2) (v : Voice) (b : Block) : Emit :=
  if gateOff b v then
    let D := getDuty cfg 3 v b
    ⟨D.block, [apuWrite (.vVol q) (vrc6DutyOnly D.value)]⟩
  else
    let P := getPeriod cfg .vrc6Pulse v b
    let V := getVolume cfg v P.block
    let D := getDuty cfg 3 v V.block
    ⟨D.block,
     [apuWrite (.vLo q) (periodLo P.value), apuWrite (.vHi q) (vrc6Hi P.value),
      apuWrite (.vVol q) (vrc6Vol D.value V.value)]⟩

/-- `CUPD` on Vrc6Saw: on the Off path the duty envelope is advanced and the volume register zeroed (spec R151). -/
def cupdSaw (cfg : Config) (b : Block) : Emit :=
  if gateOff b .saw then
    let D := getDuty cfg 0 .saw b
    ⟨D.block, [apuWrite .sVol 0x00]⟩
  else
    let P := getPeriod cfg .vrc6Saw .saw b
    let V := getVolume cfg .saw P.block
    let D := getDuty cfg 0 .saw V.block
    ⟨D.block,
     [apuWrite .sLo (periodLo P.value), apuWrite .sHi (vrc6Hi P.value), apuWrite .sVol (sawVol V.value)]⟩

/-! ### DPCM (spec R152) -/

/-- The five writes that trigger the patch of a note; none when the note has no patch, the patch no sample, or the table
no such sample (spec R49, R152, R168). -/
def dpcmTriggerWrites (cfg : Config) (note : BitVec 7) : List ApuWrite :=
  match patchOfNote cfg note with
  | none => []
  | some pt =>
    match pt.sample with
    | none => []
    | some i =>
      match sampleAddr cfg i, sampleLen cfg i with
      | some A, some L =>
        [apuWrite .dAddr (dpcmAddr A), apuWrite .dLen (dpcmLen L), apuWrite .dFreq (dpcmFreq pt),
         apuWrite .dLevel dpcmLevel, apuWrite .apuEn dmcOn]
      | _, _ => []

/-- `CUPD` on Dpcm: a pending trigger, then a pending release; both flags are cleared (spec R152). -/
def cupdDpcm (cfg : Config) (b : Block) : Emit :=
  ⟨{ b with pendingTrigger := false, pendingRelease := false },
   (if b.pendingTrigger then dpcmTriggerWrites cfg (b.chan .dmc).baseNote else []) ++
   (if b.pendingRelease then [apuWrite .apuEn dmcOff] else [])⟩

/-! ### CUPD and FRAME (spec R140, R160) -/

/-- `UpdateAPU()`, by the variant of the channel (spec R22, R140). -/
def cupd (cfg : Config) (ch : Channel) (b : Block) : Emit :=
  match ch with
  | .p1 => cupdPulse cfg 0 .p1 b
  | .p2 => cupdPulse cfg 1 .p2 b
  | .tri => cupdTriangle cfg b
  | .noi => cupdNoise cfg b
  | .dmc => cupdDpcm cfg b
  | .v1 => cupdVrc6Pulse cfg 0 .v1 b
  | .v2 => cupdVrc6Pulse cfg 1 .v2 b
  | .saw => cupdSaw cfg b

/-- The channels in ascending index (spec R12, R160). -/
def allChannels : List Channel := [.p1, .p2, .tri, .noi, .dmc, .v1, .v2, .saw]

/-- `for ch in chs: perform CUPD ch`, the traces joined in order (spec R43, R160). -/
def cupdAll (cfg : Config) : List Channel → Block → Emit
  | [], b => ⟨b, []⟩
  | ch :: chs, b =>
    let r := cupd cfg ch b
    let rs := cupdAll cfg chs r.block
    ⟨rs.block, r.writes ++ rs.writes⟩

/-- CUPD (spec R140). -/
def execCupd (ch : Channel) (s : State) : Result :=
  let r := cupd Config.current ch s.block
  .next (s.complete r.block r.writes 0)

/-- FRAME (spec R160). -/
def execFrame (s : State) : Result :=
  let r := cupdAll Config.current allChannels s.block
  .next (s.complete r.block r.writes 0)

end Sys2Proof.Machine
end

