-- ==== Sys2Proof/Machine/Dispatch.lean ====
section
/-! DEFINITION. One arm for each command (spec R64). -/

namespace Sys2Proof.Machine

def exec (i : Instr) (s : State) : Host.Outcome State Fault Refusal :=
  match i with
  | .etrig ch k => Sys2Proof.Machine.execEtrig ch k s
  | .erel ch k => Sys2Proof.Machine.execErel ch k s
  | .eadv ch k => Sys2Proof.Machine.execEadv ch k s
  | .eslen ch k n => Sys2Proof.Machine.execEslen ch k n s
  | .esloop ch k n => Sys2Proof.Machine.execEsloop ch k n s
  | .esrel ch k n => Sys2Proof.Machine.execEsrel ch k n s
  | .esdiv ch k n => Sys2Proof.Machine.execEsdiv ch k n s
  | .esval ch k j n => Sys2Proof.Machine.execEsval ch k j n s
  | .eldval ch k j n => Sys2Proof.Machine.execEldval ch k j n s
  | .estep ch k => Sys2Proof.Machine.execEstep ch k s
  | .egraw ch k => Sys2Proof.Machine.execEgraw ch k s
  | .egstate ch k => Sys2Proof.Machine.execEgstate ch k s
  | .eglen ch k => Sys2Proof.Machine.execEglen ch k s
  | .egloop ch k => Sys2Proof.Machine.execEgloop ch k s
  | .egrel ch k => Sys2Proof.Machine.execEgrel ch k s
  | .egdiv ch k => Sys2Proof.Machine.execEgdiv ch k s
  | .egval ch k j => Sys2Proof.Machine.execEgval ch k j s
  | .ctrig ch note vel rt => Sys2Proof.Machine.execCtrig ch note vel rt s
  | .crel ch => Sys2Proof.Machine.execCrel ch s
  | .cbend ch n => Sys2Proof.Machine.execCbend ch n s
  | .ckeyt ch b => Sys2Proof.Machine.execCkeyt ch b s
  | .cvsens ch b => Sys2Proof.Machine.execCvsens ch b s
  | .cupd ch => Sys2Proof.Machine.execCupd ch s
  | .frame => Sys2Proof.Machine.execFrame s

end Sys2Proof.Machine
end

