-- ==== Sys2Proof/Machine/Fetch.lean ====
section
/-! DEFINITION. Taking a word from the command port and running it, and issuing one (spec R7, R42, R65, R170). `step`
only calls these. -/

namespace Sys2Proof.Machine

/-- The next word of the command port and the machine without it; none when the host has issued no further word (spec
R42). -/
def fetch? (s : State) : Option (CommandWord × State) :=
  match s.commands with
  | [] => none
  | w :: ws => some (w, { s with commands := ws })

/-- What the block does with a word it has taken: executes the command it names, or raises Illegal (spec R65, R170). -/
def runWord (w : CommandWord) (s : State) : Host.Outcome State Fault Refusal :=
  match decode w with
  | .ok i => exec i s
  | .error c => .next (s.raiseIllegal c)

/-- The host issues one word ahead of those pending (log 1). A length that is no command's issues nothing (spec R68; log
16). -/
def issueFirst (s : State) (nbits w : Nat) : State :=
  match tableWord? nbits w with
  | some word => { s with commands := word :: s.commands }
  | none => s

end Sys2Proof.Machine
end

