-- ==== Sys2Proof/Machine/Step.lean ====
section
/-! DEFINITION. One step of the machine (spec R7, R53). -/

namespace Sys2Proof.Machine

/-- One step: the next word leaves the command port and runs. With no word issued the block waits and nothing changes
(spec R199; log 2). -/
def step (s : State) : Host.Outcome State Fault Refusal :=
  match fetch? s with
  | none => .next s
  | some (w, s') => runWord w s'

/-- The state in which the host has issued one more word, ahead of those pending: the next step runs it (log 1). -/
def State.withFetchWord (s : State) (nbits w : Nat) : State := issueFirst s nbits w

end Sys2Proof.Machine
end

