-- ==== Sys2Proof/Safety.lean ====
section
/-! DEFINITION. What a safe state and a safe run are (spec R30 to R32), and the words the statements use to say what a
command leaves alone and what it puts out. -/

namespace Sys2Proof.Machine

/-- INV1, INV2 and INV3 of one envelope (spec R30, R31, R32). -/
abbrev Envelope.Inv (e : Envelope) : Prop :=
  (e.loopPoint < e.releasePoint ∧ e.releasePoint ≤ e.length ∧ e.length ≤ 64)
    ∧ (1 ≤ e.speedDivider ∧ e.speedDivider ≤ 8)
    ∧ (e.state ≠ .off → e.step ≤ 64 * e.speedDivider - 1)

/-- INV1 to INV3 of all 28 envelopes (spec R30 to R32). -/
def Block.Inv (b : Block) : Prop := ∀ v k, (b.env v k).Inv

/-- The invariant of the machine. -/
def State.Inv (s : State) : Prop := s.block.Inv

/-- A run of `n` steps from `s` is safe: it stops at no fault and no refusal and ends in a state that meets the
invariant. -/
def SafeRun (n : Nat) (s : State) : Prop := ∃ t, Host.Core.run core n s = .next t ∧ State.Inv t

/-- A command that ends with `(OK, v)` and emits exactly `ws`: the ports' part of a next state (spec R43, R66). -/
def Puts (s t : State) (ws : List ApuWrite) (v : Value) : Prop :=
  t.commands = s.commands ∧ t.responses = s.responses ++ [⟨.ok, v⟩] ∧ t.trace = s.trace ++ ws

/-- Everything of the block but its envelopes is the same. -/
def SameChannels (b b' : Block) : Prop :=
  (∀ ch, b'.chan ch = b.chan ch) ∧ (∀ p, b'.prevHiOf p = b.prevHiOf p)
    ∧ b'.pendingTrigger = b.pendingTrigger ∧ b'.pendingRelease = b.pendingRelease

/-- Every envelope but `env[v][k]`, and everything that is no envelope, is the same. -/
def SameButEnv (v : Voice) (k : EnvKind) (b b' : Block) : Prop :=
  (∀ v' k', (v', k') ≠ (v, k) → b'.env v' k' = b.env v' k') ∧ SameChannels b b'

/-- Every envelope of the block is the same. -/
def SameEnvs (b b' : Block) : Prop := ∀ v k, b'.env v k = b.env v k

/-- Every envelope of a voice other than `v` is the same. -/
def SameOtherEnvs (v : Voice) (b b' : Block) : Prop := ∀ v', v' ≠ v → ∀ k, b'.env v' k = b.env v' k

/-- The channel index that owns a Pulse shadow (spec R28). -/
def pulseChannel (p : Fin 2) : Channel := if p = 0 then .p1 else .p2

/-- Everything the spec gives channel `ch` is the same in both blocks: its attributes, its envelopes, its coarse-period
shadow if it is a Pulse, the pending flags if it is Dpcm (spec R13). -/
def SameChannel (ch : Channel) (b b' : Block) : Prop :=
  b'.chan ch = b.chan ch
    ∧ (∀ v, voiceChannel v = ch → ∀ k, b'.env v k = b.env v k)
    ∧ (∀ p, pulseChannel p = ch → b'.prevHiOf p = b.prevHiOf p)
    ∧ (ch = .dmc → b'.pendingTrigger = b.pendingTrigger ∧ b'.pendingRelease = b.pendingRelease)

end Sys2Proof.Machine
end

