-- ==== Sys2Proof/Certificates/Slice0/Obligations.lean ====
section
/-! DEFINITION. The statements for the provers. First the words they are written in, transcribed from the spec's rules
and tables without the meanings' own operations; then one def for each statement. -/

namespace Sys2Proof.Stmt

open Sys2Proof.Machine

/-! ### Words and tables -/

/-- A row of spec/opcode_table.json: its match and mask, and whether its format is E0, EI, EX or EXI. -/
structure Row where
  bits : CommandWord
  mask : CommandWord
  env  : Bool

/-- The 24 rows of spec/opcode_table.json, in its order (spec R64). -/
def rows : List Row :=
  [⟨0x1000000000000000, 0xFF07FFFFFFFFFFFF, true⟩,
   ⟨0x1100000000000000, 0xFF07FFFFFFFFFFFF, true⟩,
   ⟨0x1200000000000000, 0xFF07FFFFFFFFFFFF, true⟩,
   ⟨0x1400000000000000, 0xFF07FFFF00000000, true⟩,
   ⟨0x1500000000000000, 0xFF07FFFF00000000, true⟩,
   ⟨0x1600000000000000, 0xFF07FFFF00000000, true⟩,
   ⟨0x1700000000000000, 0xFF07FFFF00000000, true⟩,
   ⟨0x1800000000000000, 0xFF001FFF00000000, true⟩,
   ⟨0x1900000000000000, 0xFF001FFF00000000, true⟩,
   ⟨0x2000000000000000, 0xFF07FFFFFFFFFFFF, true⟩,
   ⟨0x2100000000000000, 0xFF07FFFFFFFFFFFF, true⟩,
   ⟨0x2200000000000000, 0xFF07FFFFFFFFFFFF, true⟩] ++
  [⟨0x2400000000000000, 0xFF07FFFFFFFFFFFF, true⟩,
   ⟨0x2500000000000000, 0xFF07FFFFFFFFFFFF, true⟩,
   ⟨0x2600000000000000, 0xFF07FFFFFFFFFFFF, true⟩,
   ⟨0x2700000000000000, 0xFF07FFFFFFFFFFFF, true⟩,
   ⟨0x2800000000000000, 0xFF001FFFFFFFFFFF, true⟩,
   ⟨0x3000000000000000, 0xFF1FFFFFFFFE8080, false⟩,
   ⟨0x3100000000000000, 0xFF1FFFFFFFFFFFFF, false⟩,
   ⟨0x3200000000000000, 0xFF1FFFFF00000000, false⟩,
   ⟨0x3300000000000000, 0xFF1FFFFFFFFFFFFE, false⟩,
   ⟨0x3400000000000000, 0xFF1FFFFFFFFFFFFE, false⟩,
   ⟨0x3800000000000000, 0xFF1FFFFFFFFFFFFF, false⟩,
   ⟨0x3900000000000000, 0xFFFFFFFFFFFFFFFF, false⟩]

/-- The word's OPC is the row's. -/
def sameOpcode (w : CommandWord) (r : Row) : Bool := w &&& 0xFF00000000000000 == r.bits

/-- The word has the row's OPC and no must-be-zero bit set. -/
def matchesRow (w : CommandWord) (r : Row) : Bool := w &&& r.mask == r.bits

/-- The cause an illegal word is answered with, from the table alone, the lowest that applies; none for a legal word
(spec R65, R67, R171). -/
def illegalCause (w : CommandWord) : Option Nat :=
  if rows.all fun r => !sameOpcode w r then some 1
  else if rows.all fun r => !matchesRow w r then some 2
  else if (rows.any fun r => matchesRow w r && r.env) && (w >>> 53) &&& 7 == 4 then some 3
  else none

/-- The channel a command addresses; none for FRAME. -/
def channelOf : Instr → Option Channel
  | .ctrig ch _ _ _ => some ch
  | .crel ch => some ch
  | .cbend ch _ => some ch
  | .ckeyt ch _ => some ch
  | .cvsens ch _ => some ch
  | .cupd ch => some ch
  | .frame => none
  | i => i.envelope?.map Prod.fst

/-- The commands `is` executed one after another; none if one does not answer a next state. -/
def execAll : List Instr → State → Option State
  | [], s => some s
  | i :: is, s =>
    match exec i s with
    | .next t => execAll is t
    | _ => none

/-! ### Effects -/

/-- `i` completes with status OK and 0, changes `env[v][k]` to `e'` and nothing else, and emits no write. -/
def SetsEnv (i : Instr) (v : Voice) (k : EnvKind) (s : State) (e' : Envelope) : Prop :=
  ∃ t, exec i s = .next t ∧ t.block.env v k = e' ∧ SameButEnv v k s.block t.block ∧ Puts s t [] 0

/-- `i` completes with status OK and the signed value `x`, changes nothing of the block, and emits no write. -/
def ReadsAs (i : Instr) (s : State) (x : Int) : Prop :=
  ∃ t r, exec i s = .next t ∧ t.block = s.block ∧ Puts s t [] r ∧ r.toInt = x

/-- `clamp(n, lo, hi)` of an operand, as a counter. -/
def clampOperand (n : Value) (lo hi : Nat) : Nat := (max (lo : Int) (min n.toInt hi)).toNat

/-- The envelope after the five steps of spec R83, in their order. -/
def advanced (e : Envelope) : Envelope :=
  let s1 := e.step + 1
  let s2 := if e.state = .initial ∧ s1 ≥ e.releasePoint * e.speedDivider then e.loopPoint * e.speedDivider else s1
  let st := if (e.state = .initial ∨ e.state = .release) ∧ s2 ≥ e.length * e.speedDivider then .off else e.state
  { e with step := s2, state := st }

/-- `GetValueAndAdvance()` on `e` returns `r`: 0 if the state after the transition is Off, else the table entry at the
index the step before the increment denotes (spec R83). -/
def Returns (e : Envelope) (r : Value) : Prop :=
  if (advanced e).state = .off then r = 0 else ∃ i : Fin 64, i.val = e.step / e.speedDivider ∧ r = e.values[i.val]

/-- Every envelope of voice `v` is advanced once, every other is the same (spec R142). -/
def AdvancesVoice (v : Voice) (b b' : Block) : Prop :=
  (∀ k, b'.env v k = advanced (b.env v k)) ∧ SameOtherEnvs v b b'

/-- One pair of the trace, from numbers. -/
def wr (a d : Nat) : ApuWrite := ⟨BitVec.ofNat 16 a, BitVec.ofNat 8 d⟩

/-- `clamp(PERIODFN[t](12*(baseNote + a) + f, bend), 8, pmax)` (spec R124). -/
def periodOf (t : Tone) (pmax : Int) (c : Chan) (a f : Value) : Nat :=
  (max 8 (min (Config.current.periodFn Config.current.bendDiv t
    (12 * ((c.baseNote.toNat : Int) + a.toInt) + f.toInt) c.bend.toInt) pmax)).toNat

/-- `ceil(x * vel / 127)` over the rationals, or `x` with velocity sensitivity off (spec R126). -/
def volumeOf (c : Chan) (x : Value) : Int :=
  if c.velocitySensEnabled then ⌈((x.toInt : ℚ) * c.vel.toNat) / 127⌉ else x.toInt

/-- The voice of Pulse `p`. -/
def pulseVoice (p : Fin 2) : Voice := if p = 0 then .p1 else .p2

/-- The voice of VRC6 Pulse `q`. -/
def vrc6Voice (q : Fin 2) : Voice := if q = 0 then .v1 else .v2

/-- The period writes of a Pulse active path (spec R144, R146): the base address is 0x4000 + 4p. -/
def pulseWrites (base : Nat) (prev : Option Nat) (P : Nat) : List ApuWrite :=
  let hi := P / 256 % 8
  let lo := wr (base + 2) (P % 256)
  if prev = none then [lo, wr (base + 3) hi]
  else if prev.map (· + 1) = some hi then
    [wr 0x4017 0x40, wr (base + 2) 0xFF, wr (base + 1) 0x87, wr 0x4017 0xC0, wr (base + 1) 0x0F, lo]
  else if prev = some (hi + 1) then
    [wr 0x4017 0x40, wr (base + 2) 0x00, wr (base + 1) 0x8F, wr 0x4017 0xC0, wr (base + 1) 0x0F, lo]
  else if prev = some hi then [lo]
  else [lo, wr (base + 3) hi]

/-- The trigger writes of spec R152 for a note. -/
def dpcmWrites (note : Nat) : List ApuWrite :=
  match Config.current.patches (Fin.ofNat 12 note) with
  | some ⟨pitch, loop, some i⟩ =>
    match sampleAddr Config.current i, sampleLen Config.current i with
    | some A, some L =>
      [wr 0x4012 (A / 64 % 256), wr 0x4013 (L / 16 % 256), wr 0x4010 ((if loop then 64 else 0) + pitch.toNat),
       wr 0x4011 32, wr 0x4015 0x1F]
    | _, _ => []
  | _ => []

/-- The addresses of the register map (spec R44). -/
def apuMap : List Nat :=
  [0x4000, 0x4001, 0x4002, 0x4003, 0x4004, 0x4005, 0x4006, 0x4007, 0x4008, 0x400A, 0x400B, 0x400C, 0x400E] ++
  [0x4010, 0x4011, 0x4012, 0x4013, 0x4015, 0x4017, 0x9000, 0x9001, 0x9002, 0xA000, 0xA001, 0xA002] ++
  [0xB000, 0xB001, 0xB002]

/-- The blocks agree but for the step of envelopes that are Off in both. -/
def SameButOffSteps (b b' : Block) : Prop :=
  SameChannels b b' ∧
    ∀ v k, b'.env v k = b.env v k ∨
      ((b.env v k).state = .off ∧ b'.env v k = { b.env v k with step := (b'.env v k).step })

/-- The kinds and indices of a channel's 256 table entries, in the order of `SERIALIZE` (spec R70). -/
def tableEntries : List (EnvKind × Fin 64) :=
  [EnvKind.vol, .duty, .arp, .pitch].flatMap fun k => (List.finRange 64).map fun i => (k, i)

/-- The pseudo-instruction `SERIALIZE ch` (spec R70). -/
def serialize (ch : Channel) : List Instr := tableEntries.map fun x => .egval ch x.1 x.2

/-- The pseudo-instruction `DESERIALIZE ch, vs` (spec R70). -/
def deserialize (ch : Channel) (vs : List Value) : List Instr :=
  List.zipWith (fun x n => .eldval ch x.1 x.2 n) tableEntries vs

end Sys2Proof.Stmt

open Sys2Proof Sys2Proof.Machine Sys2Proof.Stmt

/-! ### Encoding and the command port -/

/-- Decoding the word of a well-formed command gives the command back (spec R60 to R65). -/
def Obligations.DecodeOfEncode : Prop := ∀ i : Instr, i.WellFormed → decode (encode i) = .ok i

/-- A word that decodes is the word of the command it decodes to, and that command is well formed: each command has one
word (spec R61, R65). -/
def Obligations.EncodeOfDecode : Prop := ∀ w i, decode w = .ok i → encode i = w ∧ i.WellFormed

/-- Words of the spec's vectors and encodings decode to the commands they stand for (spec V-ENC1, S1, P2 to P5). -/
def Obligations.WrittenWordsDecode : Prop :=
  decode 0x18FFE000FFFFFFA0 = .ok (.esval .saw .pitch 63 (-96)) ∧
  decode 0x14E00000FFFFFFFF = .ok (.eslen .saw .vol (-1)) ∧
  decode 0x12B0000000000000 = .ok (.eadv .v1 .arp) ∧
  decode 0x2028000000000000 = .ok (.estep .p2 .duty) ∧
  decode 0x280FE00000000000 = .ok (.egval .p1 .duty 63) ∧
  decode 0x32C00000FFFF0000 = .ok (.cbend .v2 (-65536)) ∧
  decode 0x308000000001003E = .ok (.ctrig .dmc 62 0 true) ∧
  decode 0x3380000000000001 = .ok (.ckeyt .dmc true) ∧
  decode 0x3140000000000000 = .ok (.crel .tri) ∧
  decode 0x3900000000000000 = .ok .frame

/-- A word decodes to a command exactly when the opcode table has a row for it and it does not name an envelope of channel
4 (spec R65). -/
def Obligations.LegalWordsAreTheTables : Prop := ∀ w, (∃ i, decode w = .ok i) ↔ illegalCause w = none

/-- The illegal words are the table's, and each is answered with its cause, the lowest that applies; no field of the block
changes, no write is emitted, and the block is ready for the next word (spec R67, R170, R171). -/
def Obligations.IllegalWordsAnswered : Prop :=
  ∀ s w ws n, s.commands = w :: ws → illegalCause w = some n →
    (n = 1 ∨ n = 2 ∨ n = 3) ∧
    ∃ t, step s = .next t ∧ t.block = s.block ∧ t.trace = s.trace ∧ t.commands = ws ∧
      t.responses = s.responses ++ [⟨.illegal, BitVec.ofNat 32 n⟩]

/-- A step takes the next word from the port and executes the command it decodes to (spec R53, R65). -/
def Obligations.StepRunsDecodedCommand : Prop :=
  ∀ s w ws i, s.commands = w :: ws → decode w = .ok i → step s = exec i { s with commands := ws }

/-- With no word issued a step changes nothing: the model's choice, log 2 (spec R35, R199). -/
def Obligations.StepWaitsWithoutCommand : Prop := ∀ s, s.commands = [] → step s = .next s

/-- The word of a well-formed command, issued first, is what the next step executes (log 1; spec R53, R65). -/
def Obligations.IssuedCommandRuns : Prop :=
  ∀ (s : State) (i : Instr), i.WellFormed → step (s.withFetchWord 64 (encode i).toNat) = exec i s

/-- An envelope command that names channel 4 is illegal, cause 3 (spec R62, R67): so does `exec` answer on such a term
(log 10). -/
def Obligations.DpcmEnvelopeCommandsIllegal : Prop :=
  ∀ (i : Instr) (s : State), ¬ i.WellFormed →
    exec i s = .next { s with responses := s.responses ++ [⟨.illegal, 3⟩] }

/-! ### Envelope playback -/

/-- ETRIG and EREL (spec R81, R82). -/
def Obligations.TriggerAndReleaseEnvelope : Prop :=
  ∀ v k s,
    SetsEnv (.etrig (voiceChannel v) k) v k s { s.block.env v k with state := .initial, step := 0 } ∧
    SetsEnv (.erel (voiceChannel v) k) v k s
      { s.block.env v k with
        step := (s.block.env v k).releasePoint * (s.block.env v k).speedDivider
        state := if (s.block.env v k).releasePoint < (s.block.env v k).length then .release else .off }

/-- EADV on an envelope that meets the invariants: the five steps of spec R83, the Off test last. -/
def Obligations.AdvanceEnvelope : Prop :=
  ∀ v k s, (s.block.env v k).Inv →
    ∃ t r, exec (.eadv (voiceChannel v) k) s = .next t ∧ t.block.env v k = advanced (s.block.env v k) ∧
      SameButEnv v k s.block t.block ∧ Puts s t [] r ∧ Returns (s.block.env v k) r

/-- ESTEP, EGRAW and EGSTATE change nothing and return what spec R85, R86 and R87 say. -/
def Obligations.PlaybackReads : Prop :=
  ∀ v k s, (s.block.env v k).Inv →
    ReadsAs (.estep (voiceChannel v) k) s
      (if (s.block.env v k).state = .off then -1
        else (((s.block.env v k).step / (s.block.env v k).speedDivider : Nat) : Int)) ∧
    ReadsAs (.egraw (voiceChannel v) k) s (min ((s.block.env v k).step : Int) (2 ^ 31 - 1)) ∧
    ReadsAs (.egstate (voiceChannel v) k) s
      (match (s.block.env v k).state with | .initial => 0 | .release => 1 | .off => 2)

/-- The Initial phase: the n-th EADV after ETRIG returns the entry at the index spec R88 gives, and the state is Initial
(derived by the spec from R81, R83, R84). -/
def Obligations.InitialPhaseSequence : Prop :=
  ∀ v k s (n : Nat), (s.block.env v k).Inv →
    ∃ t, execAll (.etrig (voiceChannel v) k :: List.replicate (n + 1) (.eadv (voiceChannel v) k)) s = some t ∧
      (t.block.env v k).state = .initial ∧
      ∃ i : Fin 64, t.responses.getLast? = some ⟨.ok, (s.block.env v k).values[i.val]⟩ ∧
        i.val =
          (if n < (s.block.env v k).releasePoint * (s.block.env v k).speedDivider then n / (s.block.env v k).speedDivider
            else (s.block.env v k).loopPoint +
              (n - (s.block.env v k).releasePoint * (s.block.env v k).speedDivider) %
                (((s.block.env v k).releasePoint - (s.block.env v k).loopPoint) * (s.block.env v k).speedDivider) /
              (s.block.env v k).speedDivider)

/-- The Release phase: with T = (length - releasePoint) * speedDivider, the n-th EADV after EREL returns
values[releasePoint + n div speedDivider] and stays in Release for n + 2 ≤ T, and returns 0 in Off from n = T - 1 on
(spec R89, derived there from R82, R83). -/
def Obligations.ReleasePhaseSequence : Prop :=
  ∀ v k s (n : Nat), (s.block.env v k).Inv → (s.block.env v k).releasePoint < (s.block.env v k).length →
    ∃ t, execAll (.erel (voiceChannel v) k :: List.replicate (n + 1) (.eadv (voiceChannel v) k)) s = some t ∧
      if n + 2 ≤ ((s.block.env v k).length - (s.block.env v k).releasePoint) * (s.block.env v k).speedDivider then
        (t.block.env v k).state = .release ∧
        ∃ i : Fin 64, i.val = (s.block.env v k).releasePoint + n / (s.block.env v k).speedDivider ∧
          t.responses.getLast? = some ⟨.ok, (s.block.env v k).values[i.val]⟩
      else (t.block.env v k).state = .off ∧ t.responses.getLast? = some ⟨.ok, 0⟩

/-- Off is left only by ETRIG, EREL, a retriggering CTRIG or CREL of that envelope (spec R90). -/
def Obligations.OffIsAbsorbing : Prop :=
  ∀ i s t v k, exec i s = .next t → (s.block.env v k).state = .off →
    i ≠ .etrig (voiceChannel v) k → i ≠ .erel (voiceChannel v) k → i ≠ .crel (voiceChannel v) →
    (∀ note vel, i ≠ .ctrig (voiceChannel v) note vel true) → (t.block.env v k).state = .off

/-! ### Envelope configuration -/

/-- ESLEN (spec R97). -/
def Obligations.SetLengthResult : Prop :=
  ∀ v k n s,
    let e := s.block.env v k
    let len := clampOperand n 1 64
    let rel := if e.releasePoint > len then len else e.releasePoint
    SetsEnv (.eslen (voiceChannel v) k n) v k s
      { e with length := len, releasePoint := rel, loopPoint := if e.loopPoint ≥ rel then rel - 1 else e.loopPoint }

/-- ESLOOP (spec R98). -/
def Obligations.SetLoopResult : Prop :=
  ∀ v k n s,
    let e := s.block.env v k
    let loop := clampOperand n 0 63
    let rel := if e.releasePoint ≤ loop then loop + 1 else e.releasePoint
    SetsEnv (.esloop (voiceChannel v) k n) v k s
      { e with loopPoint := loop, releasePoint := rel, length := if e.length < rel then rel else e.length }

/-- ESREL (spec R99). -/
def Obligations.SetReleaseResult : Prop :=
  ∀ v k n s,
    let e := s.block.env v k
    let rel := clampOperand n 1 64
    SetsEnv (.esrel (voiceChannel v) k n) v k s
      { e with
        releasePoint := rel
        length := if e.length < rel then rel else e.length
        loopPoint := if e.loopPoint ≥ rel then rel - 1 else e.loopPoint }

/-- ESDIV: multiply, floor, clamp to [0, length*new - 1] (spec R100). -/
def Obligations.SetDividerResult : Prop :=
  ∀ v k n s,
    let e := s.block.env v k
    let new := clampOperand n 1 8
    SetsEnv (.esdiv (voiceChannel v) k n) v k s
      { e with
        step := (max (0 : Int) (min ((e.step * new / e.speedDivider : Nat) : Int) ((e.length : Int) * new - 1))).toNat
        speedDivider := new }

/-- ESVAL stores the operand clamped to the kind's bounds, ELDVAL the operand itself, in one entry (spec R101, R102). -/
def Obligations.TableWrites : Prop :=
  ∀ v k (i : Fin 64) n s,
    (∃ x : Value, x.toInt = max (minVal Config.current k) (min n.toInt (maxVal Config.current k)) ∧
      SetsEnv (.esval (voiceChannel v) k i n) v k s
        { s.block.env v k with values := (s.block.env v k).values.set i.val x }) ∧
    SetsEnv (.eldval (voiceChannel v) k i n) v k s
      { s.block.env v k with values := (s.block.env v k).values.set i.val n }

/-- The read-backs and EGVAL change nothing and return the field (spec R103 to R107). -/
def Obligations.ReadBacks : Prop :=
  ∀ v k (i : Fin 64) s, (s.block.env v k).Inv →
    ReadsAs (.egval (voiceChannel v) k i) s (s.block.env v k).values[i.val].toInt ∧
    ReadsAs (.eglen (voiceChannel v) k) s (s.block.env v k).length ∧
    ReadsAs (.egloop (voiceChannel v) k) s (s.block.env v k).loopPoint ∧
    ReadsAs (.egrel (voiceChannel v) k) s (s.block.env v k).releasePoint ∧
    ReadsAs (.egdiv (voiceChannel v) k) s (s.block.env v k).speedDivider

/-- For a valid target the three coupled setters reach it in any order, from any envelope that meets the invariants, and
change nothing else of it or of the block (spec R109, derived there from R97 to R99). -/
def Obligations.SetterOrderIndependence : Prop :=
  ∀ v k s (l r n : Nat) cs, (s.block.env v k).Inv → l < r → r ≤ n → n ≤ 64 →
    List.Perm cs [.eslen (voiceChannel v) k (BitVec.ofNat 32 n), .esrel (voiceChannel v) k (BitVec.ofNat 32 r),
      .esloop (voiceChannel v) k (BitVec.ofNat 32 l)] →
    ∃ t, execAll cs s = some t ∧
      t.block.env v k = { s.block.env v k with loopPoint := l, releasePoint := r, length := n } ∧
      SameButEnv v k s.block t.block

/-- Loading what a channel's tables were read as leaves the block as it was: `SERIALIZE` then `DESERIALIZE` (spec R103,
derived there from R102, R103; R70). -/
def Obligations.SerializeRoundTrip : Prop :=
  ∀ v s, ∃ t u, execAll (serialize (voiceChannel v)) s = some t ∧
    execAll (deserialize (voiceChannel v) ((t.responses.drop s.responses.length).map Response.value)) t = some u ∧
    (t.responses.drop s.responses.length).length = 256 ∧ u.block = s.block

/-! ### Channel control -/

/-- CTRIG on a voice (spec R117). -/
def Obligations.TriggerVoice : Prop :=
  ∀ v note vel rt s, ∃ t, exec (.ctrig (voiceChannel v) note vel rt) s = .next t ∧
    t.block.chan (voiceChannel v) =
      { s.block.chan (voiceChannel v) with
        baseNote := if (s.block.chan (voiceChannel v)).keyTrackEnabled then note else 64
        vel := if rt then vel else (s.block.chan (voiceChannel v)).vel } ∧
    (∀ k, t.block.env v k =
      if rt then { s.block.env v k with state := .initial, step := 0 } else s.block.env v k) ∧
    SameOtherEnvs v s.block t.block ∧
    (∀ ch, ch ≠ voiceChannel v → t.block.chan ch = s.block.chan ch) ∧
    (∀ p, t.block.prevHiOf p = s.block.prevHiOf p) ∧
    t.block.pendingTrigger = s.block.pendingTrigger ∧ t.block.pendingRelease = s.block.pendingRelease ∧
    Puts s t [] 0

/-- CTRIG on the DPCM channel, whatever VEL, RT and the key-track flag (spec R118). -/
def Obligations.TriggerDpcm : Prop :=
  ∀ note vel rt s, ∃ t, exec (.ctrig .dmc note vel rt) s = .next t ∧
    t.block.chan .dmc = { s.block.chan .dmc with baseNote := note } ∧ t.block.pendingTrigger = true ∧
    t.block.pendingRelease = s.block.pendingRelease ∧ SameEnvs s.block t.block ∧
    (∀ ch, ch ≠ .dmc → t.block.chan ch = s.block.chan ch) ∧ (∀ p, t.block.prevHiOf p = s.block.prevHiOf p) ∧
    Puts s t [] 0

/-- CREL on a voice releases its four envelopes, on the DPCM channel sets the pending release; nothing else changes (spec
R119, R120). -/
def Obligations.ReleaseChannel : Prop :=
  (∀ v s, ∃ t, exec (.crel (voiceChannel v)) s = .next t ∧
    (∀ k, t.block.env v k =
      { s.block.env v k with
        step := (s.block.env v k).releasePoint * (s.block.env v k).speedDivider
        state := if (s.block.env v k).releasePoint < (s.block.env v k).length then .release else .off }) ∧
    SameOtherEnvs v s.block t.block ∧ SameChannels s.block t.block ∧ Puts s t [] 0) ∧
  (∀ s, ∃ t, exec (.crel .dmc) s = .next t ∧ t.block = { s.block with pendingRelease := true } ∧ Puts s t [] 0)

/-- CKEYT and CVSENS write their flag, on every channel, and nothing else (spec R122, R123). -/
def Obligations.ChannelFlagWrites : Prop :=
  ∀ ch x s,
    (∃ t, exec (.ckeyt ch x) s = .next t ∧ t.block.chan ch = { s.block.chan ch with keyTrackEnabled := x } ∧
      (∀ ch', ch' ≠ ch → t.block.chan ch' = s.block.chan ch') ∧ SameEnvs s.block t.block ∧
      (∀ p, t.block.prevHiOf p = s.block.prevHiOf p) ∧ t.block.pendingTrigger = s.block.pendingTrigger ∧
      t.block.pendingRelease = s.block.pendingRelease ∧ Puts s t [] 0) ∧
    (∃ t, exec (.cvsens ch x) s = .next t ∧ t.block.chan ch = { s.block.chan ch with velocitySensEnabled := x } ∧
      (∀ ch', ch' ≠ ch → t.block.chan ch' = s.block.chan ch') ∧ SameEnvs s.block t.block ∧
      (∀ p, t.block.prevHiOf p = s.block.prevHiOf p) ∧ t.block.pendingTrigger = s.block.pendingTrigger ∧
      t.block.pendingRelease = s.block.pendingRelease ∧ Puts s t [] 0)

/-- CBEND stores its operand, on every channel, and nothing else; twice is once (the state part of spec R121). -/
def Obligations.BendWrite : Prop :=
  ∀ ch n s, ∃ t, exec (.cbend ch n) s = .next t ∧ t.block.chan ch = { s.block.chan ch with bend := n } ∧
    (∀ ch', ch' ≠ ch → t.block.chan ch' = s.block.chan ch') ∧ SameEnvs s.block t.block ∧
    (∀ p, t.block.prevHiOf p = s.block.prevHiOf p) ∧ t.block.pendingTrigger = s.block.pendingTrigger ∧
    t.block.pendingRelease = s.block.pendingRelease ∧ Puts s t [] 0 ∧
    ∃ u, exec (.cbend ch n) t = .next u ∧ u.block = t.block

/-- `GetVolume()` advances the volume envelope and returns its value scaled and rounded up (spec R126), with the corner
cases of the rule. -/
def Obligations.VolumeScaling : Prop :=
  ∀ (cfg : Config) v b, (b.env v .vol).Inv →
    (getVolume cfg v b).block = b.setEnv v .vol (advanced (b.env v .vol)) ∧
    let c := b.chan (voiceChannel v)
    let V := (getVolume cfg v b).value
    ∃ x, Returns (b.env v .vol) x ∧ V = volumeOf c x ∧
      (c.velocitySensEnabled = true → 0 ≤ x.toInt → V = (x.toInt * c.vel.toNat + 126) / 127) ∧
      (c.velocitySensEnabled = true → 0 < x.toInt → 0 < c.vel.toNat → 1 ≤ V) ∧
      (c.vel = 127 → V = x.toInt)

/-! ### UpdateAPU -/

/-- CUPD on Pulse, Off path (spec R143): one silencing write, the block unchanged. -/
def Obligations.PulseSilence : Prop :=
  ∀ p s, (s.block.env (pulseVoice p) .arp).state = .off →
    ∃ t, exec (.cupd (pulseChannel p)) s = .next t ∧ t.block = s.block ∧ Puts s t [wr (0x4000 + 4 * p.val) 0x30] 0

/-- CUPD on Pulse, active path (spec R144, R146, R147). -/
def Obligations.PulseActive : Prop :=
  ∀ p s, s.Inv → (s.block.env (pulseVoice p) .arp).state ≠ .off →
    ∃ t a f x d, exec (.cupd (pulseChannel p)) s = .next t ∧
      Returns (s.block.env (pulseVoice p) .arp) a ∧ Returns (s.block.env (pulseVoice p) .pitch) f ∧
      Returns (s.block.env (pulseVoice p) .vol) x ∧ Returns (s.block.env (pulseVoice p) .duty) d ∧
      AdvancesVoice (pulseVoice p) s.block t.block ∧ (∀ ch, t.block.chan ch = s.block.chan ch) ∧
      t.block.pendingTrigger = s.block.pendingTrigger ∧ t.block.pendingRelease = s.block.pendingRelease ∧
      (∀ p', p' ≠ p → t.block.prevHiOf p' = s.block.prevHiOf p') ∧
      let c := s.block.chan (pulseChannel p)
      let P := periodOf .pulse 2047 c a f
      t.block.prevHiOf p = some (BitVec.ofNat 3 (P / 256)) ∧
      Puts s t
        (pulseWrites (0x4000 + 4 * p.val) ((s.block.prevHiOf p).map BitVec.toNat) P ++
          [wr (0x4000 + 4 * p.val) ((d.toInt % 4).toNat * 64 + 0x30 + (volumeOf c x % 16).toNat)]) 0

/-- CUPD on Triangle (spec R148). -/
def Obligations.TriangleUpdate : Prop :=
  ∀ s,
    ((s.block.env .tri .arp).state = .off →
      ∃ t, exec (.cupd .tri) s = .next t ∧ t.block = s.block ∧ Puts s t [wr 0x4008 0x80] 0) ∧
    (s.Inv → (s.block.env .tri .arp).state ≠ .off →
      ∃ t a f x, exec (.cupd .tri) s = .next t ∧ Returns (s.block.env .tri .arp) a ∧
        Returns (s.block.env .tri .pitch) f ∧ Returns (s.block.env .tri .vol) x ∧
        AdvancesVoice .tri s.block t.block ∧ SameChannels s.block t.block ∧
        let c := s.block.chan .tri
        let P := periodOf .triangle 2047 c a f
        Puts s t
          [wr 0x400A (P % 256), wr 0x400B (P / 256 % 8), wr 0x4008 (if volumeOf c x = 0 then 0x80 else 0xFF)] 0)

/-- CUPD on Noise (spec R125, R149). -/
def Obligations.NoiseUpdate : Prop :=
  ∀ s,
    ((s.block.env .noi .arp).state = .off →
      ∃ t, exec (.cupd .noi) s = .next t ∧ t.block = s.block ∧ Puts s t [wr 0x400C 0x30] 0) ∧
    (s.Inv → (s.block.env .noi .arp).state ≠ .off →
      ∃ t a x d, exec (.cupd .noi) s = .next t ∧ Returns (s.block.env .noi .arp) a ∧
        Returns (s.block.env .noi .vol) x ∧ Returns (s.block.env .noi .duty) d ∧
        AdvancesVoice .noi s.block t.block ∧ SameChannels s.block t.block ∧
        let c := s.block.chan .noi
        let n := (((c.baseNote.toNat : Int) + a.toInt) % 16).toNat
        Puts s t
          [wr 0x400E ((d.toInt % 2).toNat * 128 + (n ^^^ 0x0F)), wr 0x400C (0x30 + (volumeOf c x % 16).toNat)] 0)

/-- CUPD on VRC6 Pulse (spec R150). -/
def Obligations.Vrc6PulseUpdate : Prop :=
  ∀ q s, s.Inv →
    ((s.block.env (vrc6Voice q) .arp).state = .off →
      ∃ t d, exec (.cupd (voiceChannel (vrc6Voice q))) s = .next t ∧ Returns (s.block.env (vrc6Voice q) .duty) d ∧
        t.block.env (vrc6Voice q) .duty = advanced (s.block.env (vrc6Voice q) .duty) ∧
        SameButEnv (vrc6Voice q) .duty s.block t.block ∧
        Puts s t [wr (0x9000 + 0x1000 * q.val) ((d.toInt % 8).toNat * 16)] 0) ∧
    ((s.block.env (vrc6Voice q) .arp).state ≠ .off →
      ∃ t a f x d, exec (.cupd (voiceChannel (vrc6Voice q))) s = .next t ∧
        Returns (s.block.env (vrc6Voice q) .arp) a ∧ Returns (s.block.env (vrc6Voice q) .pitch) f ∧
        Returns (s.block.env (vrc6Voice q) .vol) x ∧ Returns (s.block.env (vrc6Voice q) .duty) d ∧
        AdvancesVoice (vrc6Voice q) s.block t.block ∧ SameChannels s.block t.block ∧
        let c := s.block.chan (voiceChannel (vrc6Voice q))
        let P := periodOf .vrc6Pulse 4095 c a f
        Puts s t
          [wr (0x9001 + 0x1000 * q.val) (P % 256), wr (0x9002 + 0x1000 * q.val) (0x80 + P / 256 % 16),
           wr (0x9000 + 0x1000 * q.val) ((d.toInt % 8).toNat * 16 + (volumeOf c x % 16).toNat)] 0)

/-- CUPD on VRC6 Saw (spec R151). -/
def Obligations.SawUpdate : Prop :=
  ∀ s, s.Inv →
    ((s.block.env .saw .arp).state = .off →
      ∃ t, exec (.cupd .saw) s = .next t ∧ t.block.env .saw .duty = advanced (s.block.env .saw .duty) ∧
        SameButEnv .saw .duty s.block t.block ∧ Puts s t [wr 0xB000 0x00] 0) ∧
    ((s.block.env .saw .arp).state ≠ .off →
      ∃ t a f x, exec (.cupd .saw) s = .next t ∧ Returns (s.block.env .saw .arp) a ∧
        Returns (s.block.env .saw .pitch) f ∧ Returns (s.block.env .saw .vol) x ∧
        AdvancesVoice .saw s.block t.block ∧ SameChannels s.block t.block ∧
        let c := s.block.chan .saw
        let P := periodOf .vrc6Saw 4095 c a f
        Puts s t
          [wr 0xB001 (P % 256), wr 0xB002 (0x80 + P / 256 % 16), wr 0xB000 ((volumeOf c x * 4) % 64).toNat] 0)

/-- CUPD on Dpcm: the trigger writes if a trigger is pending, then the release write if a release is; both flags are
cleared and nothing else changes (spec R152). -/
def Obligations.DpcmUpdate : Prop :=
  ∀ s, ∃ t, exec (.cupd .dmc) s = .next t ∧
    t.block = { s.block with pendingTrigger := false, pendingRelease := false } ∧
    Puts s t
      ((if s.block.pendingTrigger then dpcmWrites (s.block.chan .dmc).baseNote.toNat else []) ++
        (if s.block.pendingRelease then [wr 0x4015 0x0F] else [])) 0

/-- Sample packing: sample 0 at 0, each next one after the padded length of the one before, every address a multiple of 64
(spec R47). -/
def Obligations.DpcmPacking : Prop :=
  ∀ cfg : Config,
    (cfg.sampleLens ≠ [] → sampleAddr cfg 0 = some 0) ∧
    (∀ i A L B, sampleAddr cfg i = some A → sampleLen cfg i = some L → sampleAddr cfg (i + 1) = some B →
      B = A + ((L + 63) &&& 0xFFC0)) ∧
    (∀ i A, sampleAddr cfg i = some A → 64 ∣ A) ∧
    (∀ i, (sampleAddr cfg i).isSome = (sampleLen cfg i).isSome)

/-- FRAME is the eight CUPD in ascending channel index: the same block and the same trace (spec R160). -/
def Obligations.FrameIsEightUpdates : Prop :=
  ∀ s, ∃ t u, exec .frame s = .next t ∧
    execAll [.cupd .p1, .cupd .p2, .cupd .tri, .cupd .noi, .cupd .dmc, .cupd .v1, .cupd .v2, .cupd .saw] s = some u ∧
    t.block = u.block ∧ t.trace = u.trace ∧ t.commands = s.commands ∧ t.responses = s.responses ++ [⟨.ok, 0⟩]

/-- The number of writes of each CUPD (spec R161, derived there from R143 to R152). -/
def Obligations.UpdateWriteCounts : Prop :=
  ∀ ch s t, exec (.cupd ch) s = .next t →
    ∃ ws, t.trace = s.trace ++ ws ∧
      (∀ v, voiceChannel v = ch → (s.block.env v .arp).state = .off → ws.length = 1) ∧
      (∀ v, voiceChannel v = ch → (s.block.env v .arp).state ≠ .off →
        match ch with
        | .p1 | .p2 => ws.length = 2 ∨ ws.length = 3 ∨ ws.length = 7
        | .noi => ws.length = 2
        | _ => ws.length = 3) ∧
      (ch = .dmc →
        (s.block.pendingTrigger = false → ws.length = if s.block.pendingRelease then 1 else 0) ∧
        (s.block.pendingTrigger = true → s.block.pendingRelease = false → ws.length = 0 ∨ ws.length = 5) ∧
        (s.block.pendingTrigger = true → s.block.pendingRelease = true → ws.length = 1 ∨ ws.length = 6))

/-- The sweep trick (the writes to 0x4017) fires exactly on an active path whose coarse period is one from the shadow; the
high register is written exactly on an active path whose coarse period moves by more than one or has no shadow (spec
R145). -/
def Obligations.SweepTrickFires : Prop :=
  ∀ p s t, exec (.cupd (pulseChannel p)) s = .next t →
    ∃ ws, t.trace = s.trace ++ ws ∧
      ((∃ w ∈ ws, w.addr = 0x4017) ↔
        (s.block.env (pulseVoice p) .arp).state ≠ .off ∧
        ∃ old hi, s.block.prevHiOf p = some old ∧ t.block.prevHiOf p = some hi ∧
          ((hi.toNat : Int) - old.toNat = 1 ∨ (hi.toNat : Int) - old.toNat = -1)) ∧
      ((∃ w ∈ ws, w.addr = BitVec.ofNat 16 (0x4003 + 4 * p.val)) ↔
        (s.block.env (pulseVoice p) .arp).state ≠ .off ∧
        ∃ hi, t.block.prevHiOf p = some hi ∧
          (s.block.prevHiOf p = none ∨
            ∃ old, s.block.prevHiOf p = some old ∧ 1 < ((hi.toNat : Int) - old.toNat).natAbs))

/-- Only CUPD and FRAME emit register writes; what any command does to the trace is append to it, and every address is one
of the register map's (spec R43, R44, R116, R161). -/
def Obligations.WritesStayInTheMap : Prop :=
  ∀ i s t, exec i s = .next t →
    ∃ ws, t.trace = s.trace ++ ws ∧ (∀ w ∈ ws, w.addr.toNat ∈ apuMap) ∧
      ((i ≠ .frame ∧ ∀ ch, i ≠ .cupd ch) → ws = [])

/-! ### The whole machine -/

/-- The block after reset (spec R36). -/
def Obligations.ResetValues : Prop :=
  (∀ v k, (State.reset.block.env v k).loopPoint = 0 ∧ (State.reset.block.env v k).releasePoint = 1 ∧
    (State.reset.block.env v k).length = 1 ∧ (State.reset.block.env v k).speedDivider = 1 ∧
    (State.reset.block.env v k).step = 0 ∧ (State.reset.block.env v k).state = .off ∧
    ∀ i : Fin 64, (State.reset.block.env v k).values[i.val] = 0) ∧
  (∀ ch, State.reset.block.chan ch =
    { baseNote := 64, bend := 0, vel := 127, keyTrackEnabled := true, velocitySensEnabled := true }) ∧
  (∀ p, State.reset.block.prevHiOf p = none) ∧
  State.reset.block.pendingTrigger = false ∧ State.reset.block.pendingRelease = false

/-- The reset state meets INV1, INV2 and INV3 (spec R187). -/
def Obligations.ResetMeetsInvariants : Prop := State.reset.Inv

/-- Every step keeps INV1, INV2 and INV3 of every envelope, from every state that meets them (spec R30 to R32, R108). With
no word pending it does so by the model's choice of log 2. -/
def Obligations.StepKeepsInvariants : Prop := ∀ s t, s.Inv → step s = .next t → t.Inv

/-- No step faults or is refused, and a word pending is answered by exactly one response, which has status OK exactly for a
legal word (spec R66, R166). That a step with no word pending answers a next state is the model's choice, log 2. -/
def Obligations.EveryWordIsAnswered : Prop :=
  ∀ s, ∃ t, step s = .next t ∧
    ∀ w ws, s.commands = w :: ws → t.commands = ws ∧
      ∃ r, t.responses = s.responses ++ [r] ∧ (r.status = .ok ↔ ∃ i, decode w = .ok i)

/-- Every run from a state that meets the invariants is safe, however long (spec R108, R166). That a run goes on past the
last word issued is the model's choice, log 2. -/
def Obligations.EveryRunIsSafe : Prop := ∀ n s, s.Inv → SafeRun n s

/-- The writers of each field are those the spec lists: the commands its rule names (spec R14, R16 to R21, R23 to R29) and
those that perform them (R117, R119, R142, R160). -/
def Obligations.WritersOfFields : Prop :=
  ∀ i s t, exec i s = .next t →
    (∀ v k, (t.block.env v k).values ≠ (s.block.env v k).values →
      ∃ j n, i = .esval (voiceChannel v) k j n ∨ i = .eldval (voiceChannel v) k j n) ∧
    (∀ v k, (t.block.env v k).loopPoint ≠ (s.block.env v k).loopPoint ∨
        (t.block.env v k).releasePoint ≠ (s.block.env v k).releasePoint ∨
        (t.block.env v k).length ≠ (s.block.env v k).length →
      ∃ n, i = .eslen (voiceChannel v) k n ∨ i = .esloop (voiceChannel v) k n ∨ i = .esrel (voiceChannel v) k n) ∧
    (∀ v k, (t.block.env v k).speedDivider ≠ (s.block.env v k).speedDivider → ∃ n, i = .esdiv (voiceChannel v) k n) ∧
    (∀ v k, (t.block.env v k).step ≠ (s.block.env v k).step →
      i = .etrig (voiceChannel v) k ∨ i = .erel (voiceChannel v) k ∨ i = .eadv (voiceChannel v) k ∨
        (∃ n, i = .esdiv (voiceChannel v) k n) ∨ (∃ note vel, i = .ctrig (voiceChannel v) note vel true) ∨
        i = .crel (voiceChannel v) ∨ i = .cupd (voiceChannel v) ∨ i = .frame) ∧
    (∀ v k, (t.block.env v k).state ≠ (s.block.env v k).state →
      i = .etrig (voiceChannel v) k ∨ i = .erel (voiceChannel v) k ∨ i = .eadv (voiceChannel v) k ∨
        (∃ note vel, i = .ctrig (voiceChannel v) note vel true) ∨ i = .crel (voiceChannel v) ∨
        i = .cupd (voiceChannel v) ∨ i = .frame) ∧
    (∀ ch, (t.block.chan ch).baseNote ≠ (s.block.chan ch).baseNote → ∃ note vel rt, i = .ctrig ch note vel rt) ∧
    (∀ ch, (t.block.chan ch).bend ≠ (s.block.chan ch).bend → ∃ n, i = .cbend ch n) ∧
    (∀ ch, (t.block.chan ch).vel ≠ (s.block.chan ch).vel → ∃ note vel, i = .ctrig ch note vel true) ∧
    (∀ ch, (t.block.chan ch).keyTrackEnabled ≠ (s.block.chan ch).keyTrackEnabled → ∃ x, i = .ckeyt ch x) ∧
    (∀ ch, (t.block.chan ch).velocitySensEnabled ≠ (s.block.chan ch).velocitySensEnabled → ∃ x, i = .cvsens ch x) ∧
    (∀ p, t.block.prevHiOf p ≠ s.block.prevHiOf p → i = .cupd (pulseChannel p) ∨ i = .frame) ∧
    (t.block.pendingTrigger ≠ s.block.pendingTrigger →
      (∃ note vel rt, i = .ctrig .dmc note vel rt) ∨ i = .cupd .dmc ∨ i = .frame) ∧
    (t.block.pendingRelease ≠ s.block.pendingRelease → i = .crel .dmc ∨ i = .cupd .dmc ∨ i = .frame)

/-- A command addressed to a channel leaves every other channel alone (spec R180). -/
def Obligations.ChannelsAreSeparate : Prop :=
  ∀ i s t ch ch', exec i s = .next t → channelOf i = some ch → ch' ≠ ch → SameChannel ch' s.block t.block

/-- What a command addressed to a channel does and puts out depends on that channel alone, and what an envelope command does
and returns on that envelope alone (spec R180). -/
def Obligations.CommandsReadTheirOwnChannel : Prop :=
  ∀ i s s' t t', exec i s = .next t → exec i s' = .next t' →
    (∀ ch, channelOf i = some ch → SameChannel ch s.block s'.block →
      SameChannel ch t.block t'.block ∧
      ∃ ws r, t.trace = s.trace ++ ws ∧ t'.trace = s'.trace ++ ws ∧
        t.responses = s.responses ++ [r] ∧ t'.responses = s'.responses ++ [r]) ∧
    (∀ v k, i.envelope? = some (voiceChannel v, k) → s.block.env v k = s'.block.env v k →
      t.block.env v k = t'.block.env v k ∧
      ∃ r, t.responses = s.responses ++ [r] ∧ t'.responses = s'.responses ++ [r])

/-- The step of an Off envelope is unobservable: from two states that differ only in such steps, every command but EGRAW
gives the same responses and trace and states that again differ only so (spec R33). -/
def Obligations.OffStepUnobservable : Prop :=
  ∀ i s s' t t', (∀ ch k, i ≠ .egraw ch k) → SameButOffSteps s.block s'.block → s.responses = s'.responses →
    s.trace = s'.trace → exec i s = .next t → exec i s' = .next t' →
    SameButOffSteps t.block t'.block ∧ t.responses = t'.responses ∧ t.trace = t'.trace
end

