-- ==== Sys2Proof/Laws/Decode.lean ====
section
/-! SUPPORT. The fields of a packed word, the word of its fields, and the operand codes. -/

namespace Sys2Proof

section Fields
variable (opc : BitVec 8) (ch : BitVec 3) (env : BitVec 2) (idx : BitVec 6) (rsv : BitVec 13) (imm : BitVec 32)

theorem opcOf_packWord : opcOf (packWord opc ch env idx rsv imm) = opc := by
  unfold opcOf packWord; ext j hj
  simp only [BitVec.getElem_extractLsb', BitVec.getLsbD_append]
  (repeat' split) <;> first | omega | (rw [← BitVec.getLsbD_eq_getElem]; congr 1; omega)

theorem chOf_packWord : chOf (packWord opc ch env idx rsv imm) = ch := by
  unfold chOf packWord; ext j hj
  simp only [BitVec.getElem_extractLsb', BitVec.getLsbD_append]
  (repeat' split) <;> first | omega | (rw [← BitVec.getLsbD_eq_getElem]; congr 1; omega)

theorem envOf_packWord : envOf (packWord opc ch env idx rsv imm) = env := by
  unfold envOf packWord; ext j hj
  simp only [BitVec.getElem_extractLsb', BitVec.getLsbD_append]
  (repeat' split) <;> first | omega | (rw [← BitVec.getLsbD_eq_getElem]; congr 1; omega)

theorem idxOf_packWord : idxOf (packWord opc ch env idx rsv imm) = idx := by
  unfold idxOf packWord; ext j hj
  simp only [BitVec.getElem_extractLsb', BitVec.getLsbD_append]
  (repeat' split) <;> first | omega | (rw [← BitVec.getLsbD_eq_getElem]; congr 1; omega)

theorem rsvOf_packWord : rsvOf (packWord opc ch env idx rsv imm) = rsv := by
  unfold rsvOf packWord; ext j hj
  simp only [BitVec.getElem_extractLsb', BitVec.getLsbD_append]
  (repeat' split) <;> first | omega | (rw [← BitVec.getLsbD_eq_getElem]; congr 1; omega)

theorem immOf_packWord : immOf (packWord opc ch env idx rsv imm) = imm := by
  unfold immOf packWord; ext j hj
  simp only [BitVec.getElem_extractLsb', BitVec.getLsbD_append]
  (repeat' split) <;> first | omega | (rw [← BitVec.getLsbD_eq_getElem]; congr 1; omega)

/-- A word is its six fields (spec R60). -/
theorem packWord_fields (w : CommandWord) :
    packWord (opcOf w) (chOf w) (envOf w) (idxOf w) (rsvOf w) (immOf w) = w := by
  unfold packWord opcOf chOf envOf idxOf rsvOf immOf
  apply BitVec.eq_of_getLsbD_eq
  intro j hj
  simp only [BitVec.getLsbD_append, BitVec.getLsbD_extractLsb']
  (repeat' split) <;>
    (rename_i h; rw [Bool.and_eq_right_iff_imp.mpr (by intro; simp; omega)]; congr 1; omega)

end Fields

/-- Two words are the same exactly when their six fields are (spec R60). -/
theorem word_eq_iff_fields (w w' : CommandWord) :
    w = w' ↔ opcOf w = opcOf w' ∧ chOf w = chOf w' ∧ envOf w = envOf w' ∧ idxOf w = idxOf w' ∧ rsvOf w = rsvOf w' ∧
      immOf w = immOf w' := by
  constructor
  · rintro rfl; exact ⟨rfl, rfl, rfl, rfl, rfl, rfl⟩
  · rintro ⟨h1, h2, h3, h4, h5, h6⟩
    rw [← packWord_fields w, h1, h2, h3, h4, h5, h6, packWord_fields]

/-- A masked word equals a pattern exactly when each masked field does. -/
theorem masked_eq_iff_fields (w m b : CommandWord) :
    w &&& m = b ↔ opcOf w &&& opcOf m = opcOf b ∧ chOf w &&& chOf m = chOf b ∧ envOf w &&& envOf m = envOf b ∧
      idxOf w &&& idxOf m = idxOf b ∧ rsvOf w &&& rsvOf m = rsvOf b ∧ immOf w &&& immOf m = immOf b := by
  rw [word_eq_iff_fields]
  simp only [opcOf, chOf, envOf, idxOf, rsvOf, immOf, BitVec.extractLsb'_and]

@[simp] theorem channel_ofCode_code (ch : Channel) : Channel.ofCode ch.code = ch := by cases ch <;> rfl
@[simp] theorem channel_code_ofCode (c : BitVec 3) : (Channel.ofCode c).code = c := by revert c; decide
@[simp] theorem envKind_ofCode_code (k : EnvKind) : EnvKind.ofCode k.code = k := by cases k <;> rfl
@[simp] theorem envKind_code_ofCode (c : BitVec 2) : (EnvKind.ofCode c).code = c := by revert c; decide
@[simp] theorem indexOfCode_indexCode (i : Fin 64) : indexOfCode (indexCode i) = i := by revert i; decide
@[simp] theorem indexCode_indexOfCode (c : BitVec 6) : indexCode (indexOfCode c) = c := by revert c; decide

@[simp] theorem opcode_ofCode_code (o : Opcode) : Opcode.ofCode o.code = some o := by cases o <;> rfl

/-- The opcode map is one to one (spec R64). -/
theorem opcode_code_of_ofCode {c : BitVec 8} {o : Opcode} (h : Opcode.ofCode c = some o) : o.code = c := by
  revert h; revert c; cases o <;> decide

@[simp] theorem opcode_operands_opcode (o : Opcode) (w : CommandWord) : (o.operands w).opcode = o := by cases o <;> rfl

/-- The immediate of CTRIG gives its three operands back (spec R63). -/
@[simp] theorem noteOf_ctImm (note vel : BitVec 7) (rt : Bool) : noteOf (ctImm note vel rt) = note := by
  unfold noteOf ctImm; ext j hj
  simp only [BitVec.getElem_extractLsb', BitVec.getLsbD_append]
  (repeat' split) <;> first | omega | (rw [← BitVec.getLsbD_eq_getElem]; congr 1; omega)

@[simp] theorem velOf_ctImm (note vel : BitVec 7) (rt : Bool) : velOf (ctImm note vel rt) = vel := by
  unfold velOf ctImm; ext j hj
  simp only [BitVec.getElem_extractLsb', BitVec.getLsbD_append]
  (repeat' split) <;> first | omega | (rw [← BitVec.getLsbD_eq_getElem]; congr 1; omega)

@[simp] theorem rtOf_ctImm (note vel : BitVec 7) (rt : Bool) : rtOf (ctImm note vel rt) = rt := by
  simp only [rtOf, ctImm, BitVec.getLsbD_append]
  simp

@[simp] theorem flagOf_cfImm (b : Bool) : flagOf (cfImm b) = b := by cases b <;> decide

/-- The immediate of CTRIG has no must-be-zero bit set (spec R61). -/
theorem ctImm_zero (note vel : BitVec 7) (rt : Bool) : ctImm note vel rt &&& Format.immZero .ct = 0 := by
  apply BitVec.eq_of_getLsbD_eq
  intro j hj
  simp only [ctImm, Format.immZero, BitVec.getLsbD_and, BitVec.getLsbD_append]
  interval_cases j <;> simp

theorem cfImm_zero (b : Bool) : cfImm b &&& Format.immZero .cf = 0 := by cases b <;> decide

/-- An immediate without must-be-zero bits is that of its three operands (spec R61, R63). -/
theorem ctImm_fields {n : BitVec 32} (h : n &&& Format.immZero .ct = 0) : ctImm (noteOf n) (velOf n) (rtOf n) = n := by
  apply BitVec.eq_of_getLsbD_eq
  intro j hj
  have hb := congrArg (fun x => BitVec.getLsbD x j) h
  simp only [Format.immZero, BitVec.getLsbD_and] at hb
  simp only [ctImm, noteOf, velOf, rtOf, BitVec.getLsbD_append]
  interval_cases j <;> simp_all

theorem cfImm_flag {n : BitVec 32} (h : n &&& Format.immZero .cf = 0) : cfImm (flagOf n) = n := by
  apply BitVec.eq_of_getLsbD_eq
  intro j hj
  have hb := congrArg (fun x => BitVec.getLsbD x j) h
  simp only [Format.immZero, BitVec.getLsbD_and] at hb
  simp only [cfImm, flagOf, BitVec.getLsbD_append]
  interval_cases j <;> simp_all

/-- What the decoder can answer with an instruction: the opcode is assigned, the fields it does not use are zero, and the
envelope exists (spec R65). -/
theorem decode_ok {w : CommandWord} {i : Instr} :
    decode w = .ok i ↔
      ∃ o, Opcode.ofCode (opcOf w) = some o ∧ o.format.fieldsOk w = true ∧ o.operands w = i ∧ i.WellFormed := by
  unfold decode
  cases ho : Opcode.ofCode (opcOf w) with
  | none => simp
  | some o =>
    simp only [Option.some.injEq, exists_eq_left']
    split_ifs with h1 h2
    · constructor
      · intro h; cases h; exact ⟨h1, rfl, h2⟩
      · rintro ⟨-, rfl, -⟩; rfl
    · constructor
      · intro h; cases h
      · rintro ⟨-, rfl, hw⟩; exact absurd hw h2
    · constructor
      · intro h; cases h
      · rintro ⟨hf, -⟩; exact absurd hf h1

end Sys2Proof
end

