-- ==== Sys2Proof/Laws/State.lean ====
section
/-! SUPPORT. One lemma per field per update of a record of the state, true by rfl, so that no later proof unfolds one. -/

namespace Sys2Proof.Machine

section Complete
variable (s : State) (b : Block) (ws : List ApuWrite) (v : Value) (c : Illegal)
@[simp] theorem complete_block : (s.complete b ws v).block = b := rfl
@[simp] theorem complete_commands : (s.complete b ws v).commands = s.commands := rfl
@[simp] theorem complete_responses : (s.complete b ws v).responses = s.responses ++ [⟨.ok, v⟩] := rfl
@[simp] theorem complete_trace : (s.complete b ws v).trace = s.trace ++ ws := rfl
@[simp] theorem raiseIllegal_block : (s.raiseIllegal c).block = s.block := rfl
@[simp] theorem raiseIllegal_commands : (s.raiseIllegal c).commands = s.commands := rfl
@[simp] theorem raiseIllegal_responses : (s.raiseIllegal c).responses = s.responses ++ [⟨.illegal, c.code⟩] := rfl
@[simp] theorem raiseIllegal_trace : (s.raiseIllegal c).trace = s.trace := rfl
end Complete

section BlockUpdates
variable (b : Block) (v : Voice) (k : EnvKind) (e : Envelope) (ch : Channel) (a : Chan) (p : Fin 2) (h : BitVec 3)
  (x y : Bool)
@[simp] theorem setEnv_chan : (b.setEnv v k e).chan ch = b.chan ch := rfl
@[simp] theorem setEnv_prevHiOf : (b.setEnv v k e).prevHiOf p = b.prevHiOf p := rfl
@[simp] theorem setEnv_pendingTrigger : (b.setEnv v k e).pendingTrigger = b.pendingTrigger := rfl
@[simp] theorem setEnv_pendingRelease : (b.setEnv v k e).pendingRelease = b.pendingRelease := rfl
@[simp] theorem setChan_env : (b.setChan ch a).env v k = b.env v k := rfl
@[simp] theorem setChan_prevHiOf : (b.setChan ch a).prevHiOf p = b.prevHiOf p := rfl
@[simp] theorem setChan_pendingTrigger : (b.setChan ch a).pendingTrigger = b.pendingTrigger := rfl
@[simp] theorem setChan_pendingRelease : (b.setChan ch a).pendingRelease = b.pendingRelease := rfl
@[simp] theorem setPrevHi_env : (b.setPrevHi p h).env v k = b.env v k := rfl
@[simp] theorem setPrevHi_chan : (b.setPrevHi p h).chan ch = b.chan ch := rfl
@[simp] theorem setPrevHi_pendingTrigger : (b.setPrevHi p h).pendingTrigger = b.pendingTrigger := rfl
@[simp] theorem setPrevHi_pendingRelease : (b.setPrevHi p h).pendingRelease = b.pendingRelease := rfl
@[simp] theorem withTrigger_env : ({ b with pendingTrigger := x } : Block).env v k = b.env v k := rfl
@[simp] theorem withTrigger_chan : ({ b with pendingTrigger := x } : Block).chan ch = b.chan ch := rfl
@[simp] theorem withTrigger_prevHiOf : ({ b with pendingTrigger := x } : Block).prevHiOf p = b.prevHiOf p := rfl
@[simp] theorem withRelease_env : ({ b with pendingRelease := x } : Block).env v k = b.env v k := rfl
@[simp] theorem withRelease_chan : ({ b with pendingRelease := x } : Block).chan ch = b.chan ch := rfl
@[simp] theorem withRelease_prevHiOf : ({ b with pendingRelease := x } : Block).prevHiOf p = b.prevHiOf p := rfl
@[simp] theorem withPending_env :
    ({ b with pendingTrigger := x, pendingRelease := y } : Block).env v k = b.env v k := rfl
@[simp] theorem withPending_chan :
    ({ b with pendingTrigger := x, pendingRelease := y } : Block).chan ch = b.chan ch := rfl
@[simp] theorem withPending_prevHiOf :
    ({ b with pendingTrigger := x, pendingRelease := y } : Block).prevHiOf p = b.prevHiOf p := rfl
end BlockUpdates

section EnvelopeUpdates
variable (e : Envelope) (n : Value) (i : Fin 64)
@[simp] theorem trigger_values : e.trigger.values = e.values := rfl
@[simp] theorem trigger_loopPoint : e.trigger.loopPoint = e.loopPoint := rfl
@[simp] theorem trigger_releasePoint : e.trigger.releasePoint = e.releasePoint := rfl
@[simp] theorem trigger_length : e.trigger.length = e.length := rfl
@[simp] theorem trigger_speedDivider : e.trigger.speedDivider = e.speedDivider := rfl
@[simp] theorem trigger_step : e.trigger.step = 0 := rfl
@[simp] theorem trigger_state : e.trigger.state = .initial := rfl
@[simp] theorem release_values : e.release.values = e.values := rfl
@[simp] theorem release_loopPoint : e.release.loopPoint = e.loopPoint := rfl
@[simp] theorem release_releasePoint : e.release.releasePoint = e.releasePoint := rfl
@[simp] theorem release_length : e.release.length = e.length := rfl
@[simp] theorem release_speedDivider : e.release.speedDivider = e.speedDivider := rfl
@[simp] theorem release_step : e.release.step = e.releasePoint * e.speedDivider := rfl
@[simp] theorem release_state : e.release.state = releaseState e := rfl
@[simp] theorem advance_values : e.advance.values = e.values := rfl
@[simp] theorem advance_loopPoint : e.advance.loopPoint = e.loopPoint := rfl
@[simp] theorem advance_releasePoint : e.advance.releasePoint = e.releasePoint := rfl
@[simp] theorem advance_length : e.advance.length = e.length := rfl
@[simp] theorem advance_speedDivider : e.advance.speedDivider = e.speedDivider := rfl
@[simp] theorem advance_step : e.advance.step = advancedStep e := rfl
@[simp] theorem advance_state : e.advance.state = advancedState e := rfl
@[simp] theorem writeValue_loopPoint : (e.writeValue i n).loopPoint = e.loopPoint := rfl
@[simp] theorem writeValue_releasePoint : (e.writeValue i n).releasePoint = e.releasePoint := rfl
@[simp] theorem writeValue_length : (e.writeValue i n).length = e.length := rfl
@[simp] theorem writeValue_speedDivider : (e.writeValue i n).speedDivider = e.speedDivider := rfl
@[simp] theorem writeValue_step : (e.writeValue i n).step = e.step := rfl
@[simp] theorem writeValue_state : (e.writeValue i n).state = e.state := rfl
@[simp] theorem setLength_values : (e.setLength n).values = e.values := rfl
@[simp] theorem setLength_speedDivider : (e.setLength n).speedDivider = e.speedDivider := rfl
@[simp] theorem setLength_step : (e.setLength n).step = e.step := rfl
@[simp] theorem setLength_state : (e.setLength n).state = e.state := rfl
@[simp] theorem setLoop_values : (e.setLoop n).values = e.values := rfl
@[simp] theorem setLoop_speedDivider : (e.setLoop n).speedDivider = e.speedDivider := rfl
@[simp] theorem setLoop_step : (e.setLoop n).step = e.step := rfl
@[simp] theorem setLoop_state : (e.setLoop n).state = e.state := rfl
@[simp] theorem setRelease_values : (e.setRelease n).values = e.values := rfl
@[simp] theorem setRelease_speedDivider : (e.setRelease n).speedDivider = e.speedDivider := rfl
@[simp] theorem setRelease_step : (e.setRelease n).step = e.step := rfl
@[simp] theorem setRelease_state : (e.setRelease n).state = e.state := rfl
@[simp] theorem setDivider_values : (e.setDivider n).values = e.values := rfl
@[simp] theorem setDivider_loopPoint : (e.setDivider n).loopPoint = e.loopPoint := rfl
@[simp] theorem setDivider_releasePoint : (e.setDivider n).releasePoint = e.releasePoint := rfl
@[simp] theorem setDivider_length : (e.setDivider n).length = e.length := rfl
@[simp] theorem setDivider_speedDivider : (e.setDivider n).speedDivider = clampNat n 1 8 := rfl
@[simp] theorem setDivider_state : (e.setDivider n).state = e.state := rfl
end EnvelopeUpdates

end Sys2Proof.Machine
end

