-- ==== Sys2Proof/Laws/Ops.lean ====
section
/-! SUPPORT. What the shared operations can do: reads after writes of envelopes, channels and shadows; a block is its
reads; clamps; the operand forms. -/

namespace Sys2Proof.Machine

theorem slot_injective {v v' : Voice} {k k' : EnvKind} (h : (slot v k).val = (slot v' k').val) : v = v' ∧ k = k' := by
  revert h; cases v <;> cases k <;> cases v' <;> cases k' <;> decide

theorem slot_surjective (j : Fin 28) : ∃ v k, slot v k = j := by
  obtain ⟨j, hj⟩ := j
  interval_cases j <;>
    first
      | exact ⟨.p1, .vol, rfl⟩ | exact ⟨.p1, .duty, rfl⟩ | exact ⟨.p1, .arp, rfl⟩ | exact ⟨.p1, .pitch, rfl⟩
      | exact ⟨.p2, .vol, rfl⟩ | exact ⟨.p2, .duty, rfl⟩ | exact ⟨.p2, .arp, rfl⟩ | exact ⟨.p2, .pitch, rfl⟩
      | exact ⟨.tri, .vol, rfl⟩ | exact ⟨.tri, .duty, rfl⟩ | exact ⟨.tri, .arp, rfl⟩ | exact ⟨.tri, .pitch, rfl⟩
      | exact ⟨.noi, .vol, rfl⟩ | exact ⟨.noi, .duty, rfl⟩ | exact ⟨.noi, .arp, rfl⟩ | exact ⟨.noi, .pitch, rfl⟩
      | exact ⟨.v1, .vol, rfl⟩ | exact ⟨.v1, .duty, rfl⟩ | exact ⟨.v1, .arp, rfl⟩ | exact ⟨.v1, .pitch, rfl⟩
      | exact ⟨.v2, .vol, rfl⟩ | exact ⟨.v2, .duty, rfl⟩ | exact ⟨.v2, .arp, rfl⟩ | exact ⟨.v2, .pitch, rfl⟩
      | exact ⟨.saw, .vol, rfl⟩ | exact ⟨.saw, .duty, rfl⟩ | exact ⟨.saw, .arp, rfl⟩ | exact ⟨.saw, .pitch, rfl⟩

/-- Reading an envelope after writing one. -/
theorem env_setEnv (b : Block) (v v' : Voice) (k k' : EnvKind) (e : Envelope) :
    (b.setEnv v k e).env v' k' = if v' = v ∧ k' = k then e else b.env v' k' := by
  unfold Block.env Block.setEnv
  simp only [Vector.getElem_set]
  by_cases h : v' = v ∧ k' = k
  · obtain ⟨rfl, rfl⟩ := h; simp
  · rw [if_neg h, if_neg]
    intro hs
    obtain ⟨rfl, rfl⟩ := slot_injective hs
    exact h ⟨rfl, rfl⟩

@[simp] theorem env_setEnv_same (b : Block) (v : Voice) (k : EnvKind) (e : Envelope) : (b.setEnv v k e).env v k = e := by
  simp [env_setEnv]

theorem env_setEnv_other {b : Block} {v v' : Voice} {k k' : EnvKind} {e : Envelope} (h : (v', k') ≠ (v, k)) :
    (b.setEnv v k e).env v' k' = b.env v' k' := by
  rw [env_setEnv, if_neg]; rintro ⟨rfl, rfl⟩; exact h rfl

/-- Writing an envelope back changes nothing. -/
@[simp] theorem setEnv_env (b : Block) (v : Voice) (k : EnvKind) : b.setEnv v k (b.env v k) = b := by
  simp [Block.setEnv, Block.env]

theorem chanIndex_injective {ch ch' : Channel} (h : (chanIndex ch).val = (chanIndex ch').val) : ch = ch' := by
  revert h; cases ch <;> cases ch' <;> decide

/-- Reading a channel's attributes after writing one's. -/
theorem chan_setChan (b : Block) (ch ch' : Channel) (a : Chan) :
    (b.setChan ch a).chan ch' = if ch' = ch then a else b.chan ch' := by
  unfold Block.chan Block.setChan
  simp only [Vector.getElem_set]
  by_cases h : ch' = ch
  · subst h; simp
  · rw [if_neg h, if_neg]
    intro hs
    exact h (chanIndex_injective hs).symm

@[simp] theorem chan_setChan_same (b : Block) (ch : Channel) (a : Chan) : (b.setChan ch a).chan ch = a := by
  simp [chan_setChan]

/-- Reading a coarse-period shadow after writing one. -/
theorem prevHiOf_setPrevHi (b : Block) (p p' : Fin 2) (h : BitVec 3) :
    (b.setPrevHi p h).prevHiOf p' = if p' = p then some h else b.prevHiOf p' := by
  unfold Block.prevHiOf Block.setPrevHi
  simp only [Vector.getElem_set, Fin.ext_iff, eq_comm]

/-- A block is what its reads give. -/
theorem Block.ext_reads {b b' : Block} (he : ∀ v k, b.env v k = b'.env v k) (hc : ∀ ch, b.chan ch = b'.chan ch)
    (hp : ∀ p, b.prevHiOf p = b'.prevHiOf p) (ht : b.pendingTrigger = b'.pendingTrigger)
    (hr : b.pendingRelease = b'.pendingRelease) : b = b' := by
  have h1 : b.envs = b'.envs := by
    apply Vector.ext
    intro i hi
    obtain ⟨v, k, hs⟩ := slot_surjective ⟨i, hi⟩
    have := he v k
    simpa [Block.env, hs] using this
  have h2 : b.chans = b'.chans := by
    apply Vector.ext
    intro i hi
    have hs : ∃ ch, chanIndex ch = ⟨i, hi⟩ := by
      interval_cases i
      · exact ⟨.p1, rfl⟩
      · exact ⟨.p2, rfl⟩
      · exact ⟨.tri, rfl⟩
      · exact ⟨.noi, rfl⟩
      · exact ⟨.dmc, rfl⟩
      · exact ⟨.v1, rfl⟩
      · exact ⟨.v2, rfl⟩
      · exact ⟨.saw, rfl⟩
    obtain ⟨ch, hs⟩ := hs
    have := hc ch
    simpa [Block.chan, hs] using this
  have h3 : b.prevHi = b'.prevHi := by
    apply Vector.ext
    intro i hi
    exact hp ⟨i, hi⟩
  cases b; cases b'; simp_all

/-! ### Voices -/

@[simp] theorem voice?_voiceChannel (v : Voice) : voice? (voiceChannel v) = some v := by cases v <;> rfl

theorem voice?_eq_some {ch : Channel} {v : Voice} : voice? ch = some v ↔ voiceChannel v = ch := by
  cases ch <;> cases v <;> decide

theorem voice?_eq_none {ch : Channel} : voice? ch = none ↔ ch = .dmc := by cases ch <;> decide

theorem voiceChannel_injective {v v' : Voice} (h : voiceChannel v = voiceChannel v') : v = v' := by
  revert h; cases v <;> cases v' <;> decide

theorem voiceChannel_ne_dmc (v : Voice) : voiceChannel v ≠ .dmc := by cases v <;> decide

/-! ### Arithmetic -/

theorem clamp_mem {x lo hi : Int} (h : lo ≤ hi) : lo ≤ clamp x lo hi ∧ clamp x lo hi ≤ hi := by
  unfold clamp; split_ifs <;> omega

theorem clamp_of_mem {x lo hi : Int} (h1 : lo ≤ x) (h2 : x ≤ hi) : clamp x lo hi = x := by
  unfold clamp; split_ifs <;> omega

theorem clampNat_cast {n : Value} {lo hi : Nat} (h : lo ≤ hi) : (clampNat n lo hi : Int) = clamp n.toInt lo hi := by
  have := clamp_mem (x := n.toInt) (lo := lo) (hi := hi) (by omega)
  simp only [clampNat, operand]; omega

theorem clampNat_mem (n : Value) {lo hi : Nat} (h : lo ≤ hi) : lo ≤ clampNat n lo hi ∧ clampNat n lo hi ≤ hi := by
  have := clamp_mem (x := n.toInt) (lo := lo) (hi := hi) (by omega)
  have := clampNat_cast (n := n) h
  omega

/-- `ceil` is the least integer not below the quotient (spec R10). -/
theorem ceilDiv_le_iff {a b c : Int} (hb : 0 < b) : ceilDiv a b ≤ c ↔ a ≤ c * b := by
  unfold ceilDiv
  have : -c ≤ (-a) / b ↔ -c * b ≤ -a := Int.le_ediv_iff_mul_le hb
  constructor
  · intro h; have := this.mp (by omega); linarith
  · intro h; have := this.mpr (by linarith); omega

/-! ### Operand forms -/

/-- An envelope command on a voice. -/
theorem onVoice_voice (v : Voice) (s : State) (f : Voice → State) : onVoice (voiceChannel v) s f = .next (f v) := by
  simp [onVoice]

/-- An envelope command on the DPCM channel is illegal. -/
theorem onVoice_dmc (s : State) (f : Voice → State) : onVoice .dmc s f = .next (s.raiseIllegal .noSuchEnvelope) := rfl

/-- What an envelope command can do. -/
theorem onVoice_cases {ch : Channel} {s t : State} {f : Voice → State} (h : onVoice ch s f = .next t) :
    (ch = .dmc ∧ t = s.raiseIllegal .noSuchEnvelope) ∨ ∃ v, ch = voiceChannel v ∧ t = f v := by
  unfold onVoice at h
  cases hv : voice? ch with
  | none => rw [hv] at h; cases h; exact .inl ⟨voice?_eq_none.mp hv, rfl⟩
  | some v => rw [hv] at h; cases h; exact .inr ⟨v, (voice?_eq_some.mp hv).symm, rfl⟩

/-- A setter on a voice: one envelope changes, the response is `(OK, 0)`, nothing is written to the chip. -/
theorem updateEnv_voice (v : Voice) (k : EnvKind) (s : State) (f : Envelope → Envelope) :
    updateEnv (voiceChannel v) k s f = .next (s.complete (s.block.setEnv v k (f (s.block.env v k))) [] 0) :=
  onVoice_voice ..

/-- A read on a voice: nothing changes but the response. -/
theorem readEnv_voice (v : Voice) (k : EnvKind) (s : State) (f : Envelope → Value) :
    readEnv (voiceChannel v) k s f = .next (s.complete s.block [] (f (s.block.env v k))) :=
  onVoice_voice ..

/-- Replacing `env[v][k]` leaves everything else alone. -/
theorem sameButEnv_setEnv (b : Block) (v : Voice) (k : EnvKind) (e : Envelope) : SameButEnv v k b (b.setEnv v k e) :=
  ⟨fun _ _ h => env_setEnv_other h, fun _ => rfl, fun _ => rfl, rfl, rfl⟩

/-- The ports after a completed command. -/
theorem puts_complete (s : State) (b : Block) (ws : List ApuWrite) (v : Value) : Puts s (s.complete b ws v) ws v :=
  ⟨rfl, rfl, rfl⟩

/-- A counter that fits reads back as itself. -/
theorem counterValue_toInt {n : Nat} (h : n < 2 ^ 31) : (counterValue n).toInt = n := by
  simp only [counterValue, BitVec.toInt_eq_toNat_cond, BitVec.toNat_ofNat]
  split_ifs <;> omega

end Sys2Proof.Machine
end

