-- ==== Sys2Proof/Laws/Invariant.lean ====
section
/-! SUPPORT. INV1, INV2 and INV3 of one envelope through each operation on it (spec R30 to R32), and of a block through
the replacement of one envelope. -/

namespace Sys2Proof.Machine

theorem Inv.trigger {e : Envelope} (h : e.Inv) : e.trigger.Inv := by
  obtain ⟨h1, h2, -⟩ := h
  exact ⟨h1, h2, fun _ => Nat.zero_le _⟩

theorem Inv.release {e : Envelope} (h : e.Inv) : e.release.Inv := by
  obtain ⟨h1, h2, -⟩ := h
  refine ⟨h1, h2, fun hs => ?_⟩
  have hr : e.releasePoint < e.length := by
    by_contra hn
    exact hs (by simp [releaseState, hn])
  have : (e.releasePoint + 1) * e.speedDivider ≤ 64 * e.speedDivider := Nat.mul_le_mul_right _ (by omega)
  simp only [release_step, release_speedDivider]
  nlinarith [Nat.add_mul e.releasePoint 1 e.speedDivider, h2.1, Nat.sub_add_cancel (n := 64 * e.speedDivider) (m := 1) (by omega)]

/-- `EADV` leaves the state other than Off only with the step below the length (spec R83). -/
theorem advancedStep_lt {e : Envelope} (h : advancedState e ≠ .off) : advancedStep e < e.length * e.speedDivider := by
  unfold advancedState at h
  split_ifs at h with hc
  · exact absurd rfl h
  · by_contra hn; exact hc ⟨h, by omega⟩

theorem Inv.advance {e : Envelope} (h : e.Inv) : e.advance.Inv := by
  obtain ⟨h1, h2, -⟩ := h
  refine ⟨h1, h2, fun hs => ?_⟩
  have h3 := advancedStep_lt hs
  have : e.length * e.speedDivider ≤ 64 * e.speedDivider := Nat.mul_le_mul_right _ h1.2.2
  simp only [advance_step, advance_speedDivider]
  omega

theorem Inv.writeValue {e : Envelope} (h : e.Inv) (i : Fin 64) (n : Value) : (e.writeValue i n).Inv := h

theorem Inv.setLength {e : Envelope} (h : e.Inv) (n : Value) : (e.setLength n).Inv := by
  obtain ⟨h1, h2, h3⟩ := h
  have := clampNat_mem n (lo := 1) (hi := 64) (by omega)
  refine ⟨?_, h2, h3⟩
  simp only [Envelope.setLength]
  split_ifs <;> omega

theorem Inv.setLoop {e : Envelope} (h : e.Inv) (n : Value) : (e.setLoop n).Inv := by
  obtain ⟨h1, h2, h3⟩ := h
  have := clampNat_mem n (lo := 0) (hi := 63) (by omega)
  refine ⟨?_, h2, h3⟩
  simp only [Envelope.setLoop]
  split_ifs <;> omega

theorem Inv.setRelease {e : Envelope} (h : e.Inv) (n : Value) : (e.setRelease n).Inv := by
  obtain ⟨h1, h2, h3⟩ := h
  have := clampNat_mem n (lo := 1) (hi := 64) (by omega)
  refine ⟨?_, h2, h3⟩
  simp only [Envelope.setRelease]
  split_ifs <;> omega

theorem Inv.setDivider {e : Envelope} (h : e.Inv) (n : Value) : (e.setDivider n).Inv := by
  obtain ⟨h1, -, -⟩ := h
  have hn := clampNat_mem n (lo := 1) (hi := 8) (by omega)
  refine ⟨h1, hn, fun _ => ?_⟩
  have : e.length * clampNat n 1 8 ≤ 64 * clampNat n 1 8 := Nat.mul_le_mul_right _ h1.2.2
  simp only [Envelope.setDivider]
  omega

/-- Every table read is in bounds (spec R32). -/
theorem Inv.index_lt {e : Envelope} (h : e.Inv) (hs : e.state ≠ .off) : e.step / e.speedDivider < 64 := by
  obtain ⟨-, h2, h3⟩ := h
  have := h3 hs
  rw [Nat.div_lt_iff_lt_mul (by omega)]
  omega

/-- `EADV` never leaves Off (spec R83, R90). -/
theorem advancedState_of_off {e : Envelope} (h : e.state = .off) : advancedState e = .off := by
  simp [advancedState, h]

/-- Replacing an envelope by one that meets the invariant keeps the block's. -/
theorem Block.Inv.setEnv {b : Block} (h : b.Inv) {v : Voice} {k : EnvKind} {e : Envelope} (he : e.Inv) :
    (b.setEnv v k e).Inv := by
  intro v' k'
  rw [env_setEnv]
  split_ifs
  · exact he
  · exact h v' k'

/-- A block with the same envelopes meets the invariant too. -/
theorem Block.Inv.of_sameEnvs {b b' : Block} (h : b.Inv) (hs : SameEnvs b b') : b'.Inv := fun v k => by
  rw [hs v k]; exact h v k

end Sys2Proof.Machine
end

