-- ==== Sys2Proof/Laws/Update.lean ====
section
/-! SUPPORT. What the reads of UpdateAPU do to a block, and what CUPD of each variant does: its trace and the envelopes
and fields it changes (spec R124 to R127, R140 to R152). -/

namespace Sys2Proof.Machine

section Reads
variable (cfg : Config) (v : Voice) (k : EnvKind) (b : Block) (t : Tone) (n : Nat)

@[simp] theorem eadvOn_value : (eadvOn cfg v k b).value = (b.env v k).advanceValue cfg := rfl

theorem eadvOn_env (v' : Voice) (k' : EnvKind) :
    (eadvOn cfg v k b).block.env v' k' = if v' = v ∧ k' = k then (b.env v' k').advance else b.env v' k' := by
  unfold eadvOn
  simp only [env_setEnv]
  split_ifs with h
  · obtain ⟨rfl, rfl⟩ := h; rfl
  · rfl

theorem eadvOn_sameChannels : SameChannels b (eadvOn cfg v k b).block := ⟨fun _ => rfl, fun _ => rfl, rfl, rfl⟩

end Reads

theorem SameChannels.refl (b : Block) : SameChannels b b := ⟨fun _ => rfl, fun _ => rfl, rfl, rfl⟩

theorem SameChannels.trans {b b' b'' : Block} (h : SameChannels b b') (h' : SameChannels b' b'') : SameChannels b b'' :=
  ⟨fun c => (h'.1 c).trans (h.1 c), fun p => (h'.2.1 p).trans (h.2.1 p), h'.2.2.1.trans h.2.2.1,
    h'.2.2.2.trans h.2.2.2⟩

/-- The block after the four reads of an active path, period first: each of the voice's envelopes is advanced once, and
nothing else changes (spec R142). -/
def activeBlock (cfg : Config) (v : Voice) (b : Block) : Block :=
  (eadvOn cfg v .duty (eadvOn cfg v .vol (eadvOn cfg v .pitch (eadvOn cfg v .arp b).block).block).block).block

theorem activeBlock_env (cfg : Config) (v : Voice) (b : Block) (v' : Voice) (k : EnvKind) :
    (activeBlock cfg v b).env v' k = if v' = v then (b.env v' k).advance else b.env v' k := by
  unfold activeBlock
  simp only [eadvOn_env]
  by_cases h : v' = v
  · cases k <;> simp [h]
  · simp [h]

theorem activeBlock_sameChannels (cfg : Config) (v : Voice) (b : Block) : SameChannels b (activeBlock cfg v b) :=
  ⟨fun _ => rfl, fun _ => rfl, rfl, rfl⟩

section Variants
variable (cfg : Config) (b : Block)

/-- The value a read of envelope `k` of voice `v` returns. -/
def readOf (cfg : Config) (b : Block) (v : Voice) (k : EnvKind) : Value := (b.env v k).advanceValue cfg

theorem getPeriod_value (t : Tone) (v : Voice) :
    (getPeriod cfg t v b).value =
      tonePeriod cfg t (b.chan (voiceChannel v)) (readOf cfg b v .arp) (readOf cfg b v .pitch) := by
  simp [getPeriod, readOf, eadvOn_env]

theorem getNoisePeriod_value (v : Voice) :
    (getNoisePeriod cfg v b).value = noisePeriod (b.chan (voiceChannel v)) (readOf cfg b v .arp) := rfl

theorem getVolume_value (t : Tone) (v : Voice) :
    (getVolume cfg v (getPeriod cfg t v b).block).value =
      scaledVolume (b.chan (voiceChannel v)) (readOf cfg b v .vol) := by
  simp [getVolume, getPeriod, readOf, eadvOn_env, (eadvOn_sameChannels _ _ _ _).1]

theorem getDuty_value (t : Tone) (n : Nat) (v : Voice) :
    (getDuty cfg n v (getVolume cfg v (getPeriod cfg t v b).block).block).value =
      BitVec.ofInt n (readOf cfg b v .duty).toInt := by
  simp [getDuty, getVolume, getPeriod, readOf, eadvOn_env]

theorem getDuty_block (t : Tone) (n : Nat) (v : Voice) :
    (getDuty cfg n v (getVolume cfg v (getPeriod cfg t v b).block).block).block = activeBlock cfg v b := rfl

theorem getNoiseVolume_value (v : Voice) :
    (getVolume cfg v (getNoisePeriod cfg v b).block).value =
      scaledVolume (b.chan (voiceChannel v)) (readOf cfg b v .vol) := by
  simp [getVolume, getNoisePeriod, readOf, eadvOn_env, (eadvOn_sameChannels _ _ _ _).1]

theorem getNoiseDuty_value (n : Nat) (v : Voice) :
    (getDuty cfg n v (getVolume cfg v (getNoisePeriod cfg v b).block).block).value =
      BitVec.ofInt n (readOf cfg b v .duty).toInt := by
  simp [getDuty, getVolume, getNoisePeriod, readOf, eadvOn_env]

theorem getNoiseDuty_block (n : Nat) (v : Voice) :
    (getDuty cfg n v (getVolume cfg v (getNoisePeriod cfg v b).block).block).block = activeBlock cfg v b := rfl

/-- `CUPD` on Pulse, Off path (spec R143). -/
theorem cupdPulse_off {p : Fin 2} {v : Voice} (h : (b.env v .arp).state = .off) :
    cupdPulse cfg p v b = ⟨b, [apuWrite (.pVol p) constBits]⟩ := by
  simp [cupdPulse, gateOff, h]

/-- `CUPD` on Pulse, active path (spec R144). -/
theorem cupdPulse_active {p : Fin 2} {v : Voice} (h : (b.env v .arp).state ≠ .off) :
    cupdPulse cfg p v b =
      ⟨(activeBlock cfg v b).setPrevHi p
          (coarse (tonePeriod cfg .pulse (b.chan (voiceChannel v)) (readOf cfg b v .arp) (readOf cfg b v .pitch))),
        pulsePeriodWrites p (b.prevHiOf p)
            (tonePeriod cfg .pulse (b.chan (voiceChannel v)) (readOf cfg b v .arp) (readOf cfg b v .pitch)) ++
          [apuWrite (.pVol p) (pulseVol (BitVec.ofInt 2 (readOf cfg b v .duty).toInt)
            (scaledVolume (b.chan (voiceChannel v)) (readOf cfg b v .vol)))]⟩ := by
  have hg : gateOff b v = false := by simpa [gateOff] using h
  simp only [cupdPulse, hg, Bool.false_eq_true, if_false, getPeriod_value, getVolume_value, getDuty_value, getDuty_block]

theorem cupdTriangle_off (h : (b.env .tri .arp).state = .off) :
    cupdTriangle cfg b = ⟨b, [apuWrite .tLin triSilent]⟩ := by
  simp [cupdTriangle, gateOff, h]

theorem cupdTriangle_active (h : (b.env .tri .arp).state ≠ .off) :
    cupdTriangle cfg b =
      ⟨activeBlock cfg .tri b,
        let P := tonePeriod cfg .triangle (b.chan .tri) (readOf cfg b .tri .arp) (readOf cfg b .tri .pitch)
        [apuWrite .tLo (periodLo P), apuWrite .tHi (periodHi (coarse P)),
          apuWrite .tLin (triLin (scaledVolume (b.chan .tri) (readOf cfg b .tri .vol)))]⟩ := by
  have hg : gateOff b .tri = false := by simpa [gateOff] using h
  simp only [cupdTriangle, hg, Bool.false_eq_true, if_false, getPeriod_value, getVolume_value, getDuty_block, voiceChannel]

theorem cupdNoise_off (h : (b.env .noi .arp).state = .off) :
    cupdNoise cfg b = ⟨b, [apuWrite .nVol constBits]⟩ := by
  simp [cupdNoise, gateOff, h]

theorem cupdNoise_active (h : (b.env .noi .arp).state ≠ .off) :
    cupdNoise cfg b =
      ⟨activeBlock cfg .noi b,
        [apuWrite .nPer (noisePer (BitVec.ofInt 1 (readOf cfg b .noi .duty).toInt)
            (noisePeriod (b.chan .noi) (readOf cfg b .noi .arp))),
          apuWrite .nVol (noiseVol (scaledVolume (b.chan .noi) (readOf cfg b .noi .vol)))]⟩ := by
  have hg : gateOff b .noi = false := by simpa [gateOff] using h
  simp only [cupdNoise, hg, Bool.false_eq_true, if_false, getNoisePeriod_value, getNoiseVolume_value, getNoiseDuty_value,
    getNoiseDuty_block, voiceChannel]

theorem cupdVrc6Pulse_off {q : Fin 2} {v : Voice} (h : (b.env v .arp).state = .off) :
    cupdVrc6Pulse cfg q v b =
      ⟨b.setEnv v .duty (b.env v .duty).advance,
        [apuWrite (.vVol q) (vrc6DutyOnly (BitVec.ofInt 3 (readOf cfg b v .duty).toInt))]⟩ := by
  simp [cupdVrc6Pulse, gateOff, h, getDuty, readOf, eadvOn]

theorem cupdVrc6Pulse_active {q : Fin 2} {v : Voice} (h : (b.env v .arp).state ≠ .off) :
    cupdVrc6Pulse cfg q v b =
      ⟨activeBlock cfg v b,
        let P := tonePeriod cfg .vrc6Pulse (b.chan (voiceChannel v)) (readOf cfg b v .arp) (readOf cfg b v .pitch)
        [apuWrite (.vLo q) (periodLo P), apuWrite (.vHi q) (vrc6Hi P),
          apuWrite (.vVol q) (vrc6Vol (BitVec.ofInt 3 (readOf cfg b v .duty).toInt)
            (scaledVolume (b.chan (voiceChannel v)) (readOf cfg b v .vol)))]⟩ := by
  have hg : gateOff b v = false := by simpa [gateOff] using h
  simp only [cupdVrc6Pulse, hg, Bool.false_eq_true, if_false, getPeriod_value, getVolume_value, getDuty_value,
    getDuty_block]

theorem cupdSaw_off (h : (b.env .saw .arp).state = .off) :
    cupdSaw cfg b = ⟨b.setEnv .saw .duty (b.env .saw .duty).advance, [apuWrite .sVol 0x00]⟩ := by
  simp [cupdSaw, gateOff, h, getDuty, eadvOn]

theorem cupdSaw_active (h : (b.env .saw .arp).state ≠ .off) :
    cupdSaw cfg b =
      ⟨activeBlock cfg .saw b,
        let P := tonePeriod cfg .vrc6Saw (b.chan .saw) (readOf cfg b .saw .arp) (readOf cfg b .saw .pitch)
        [apuWrite .sLo (periodLo P), apuWrite .sHi (vrc6Hi P),
          apuWrite .sVol (sawVol (scaledVolume (b.chan .saw) (readOf cfg b .saw .vol)))]⟩ := by
  have hg : gateOff b .saw = false := by simpa [gateOff] using h
  simp only [cupdSaw, hg, Bool.false_eq_true, if_false, getPeriod_value, getVolume_value, getDuty_block, voiceChannel]

/-- What a sequence of updates is made of (spec R43, R160). -/
theorem cupdAll_append (cs ds : List Channel) :
    cupdAll cfg (cs ++ ds) b =
      ⟨(cupdAll cfg ds (cupdAll cfg cs b).block).block,
        (cupdAll cfg cs b).writes ++ (cupdAll cfg ds (cupdAll cfg cs b).block).writes⟩ := by
  induction cs generalizing b with
  | nil => rfl
  | cons c cs ih => simp [cupdAll, ih, List.append_assoc]

/-- Each variant's CUPD as a function of the voice: what the dispatch of `cupd` gives (spec R22, R140). -/
theorem cupd_cases (ch : Channel) :
    (∃ p v, pulseChannel p = ch ∧ voiceChannel v = ch ∧ cupd cfg ch b = cupdPulse cfg p v b) ∨
    (ch = .tri ∧ cupd cfg ch b = cupdTriangle cfg b) ∨ (ch = .noi ∧ cupd cfg ch b = cupdNoise cfg b) ∨
    (ch = .dmc ∧ cupd cfg ch b = cupdDpcm cfg b) ∨
    (∃ q v, voiceChannel v = ch ∧ cupd cfg ch b = cupdVrc6Pulse cfg q v b) ∨ (ch = .saw ∧ cupd cfg ch b = cupdSaw cfg b) := by
  cases ch with
  | p1 => exact .inl ⟨0, .p1, rfl, rfl, rfl⟩
  | p2 => exact .inl ⟨1, .p2, rfl, rfl, rfl⟩
  | tri => exact .inr (.inl ⟨rfl, rfl⟩)
  | noi => exact .inr (.inr (.inl ⟨rfl, rfl⟩))
  | dmc => exact .inr (.inr (.inr (.inl ⟨rfl, rfl⟩)))
  | v1 => exact .inr (.inr (.inr (.inr (.inl ⟨0, .v1, rfl, rfl⟩))))
  | v2 => exact .inr (.inr (.inr (.inr (.inl ⟨1, .v2, rfl, rfl⟩))))
  | saw => exact .inr (.inr (.inr (.inr (.inr ⟨rfl, rfl⟩))))

/-- What CUPD of a voice does to the block: nothing, or its duty envelope is advanced, or all four are and, on a Pulse, the
shadow is written (spec R142). -/
theorem cupd_block_cases {ch : Channel} (h : ch ≠ .dmc) :
    ∃ v, voiceChannel v = ch ∧
      ((cupd cfg ch b).block = b ∨ (cupd cfg ch b).block = (eadvOn cfg v .duty b).block ∨
        (cupd cfg ch b).block = activeBlock cfg v b ∨
        ∃ p hi, pulseChannel p = ch ∧ (cupd cfg ch b).block = (activeBlock cfg v b).setPrevHi p hi) := by
  obtain ⟨p, v, hp, hv, he⟩ | ⟨hc, he⟩ | ⟨hc, he⟩ | ⟨hc, -⟩ | ⟨q, v, hv, he⟩ | ⟨hc, he⟩ := cupd_cases cfg b ch
  · refine ⟨v, hv, ?_⟩
    by_cases ho : (b.env v .arp).state = .off
    · rw [he, cupdPulse_off cfg b ho]; exact .inl rfl
    · rw [he, cupdPulse_active cfg b ho]; exact .inr (.inr (.inr ⟨p, _, hp, rfl⟩))
  · refine ⟨.tri, hc.symm, ?_⟩
    by_cases ho : (b.env .tri .arp).state = .off
    · rw [he, cupdTriangle_off cfg b ho]; exact .inl rfl
    · rw [he, cupdTriangle_active cfg b ho]; exact .inr (.inr (.inl rfl))
  · refine ⟨.noi, hc.symm, ?_⟩
    by_cases ho : (b.env .noi .arp).state = .off
    · rw [he, cupdNoise_off cfg b ho]; exact .inl rfl
    · rw [he, cupdNoise_active cfg b ho]; exact .inr (.inr (.inl rfl))
  · exact absurd hc h
  · refine ⟨v, hv, ?_⟩
    by_cases ho : (b.env v .arp).state = .off
    · rw [he, cupdVrc6Pulse_off cfg b ho]; exact .inr (.inl rfl)
    · rw [he, cupdVrc6Pulse_active cfg b ho]; exact .inr (.inr (.inl rfl))
  · refine ⟨.saw, hc.symm, ?_⟩
    by_cases ho : (b.env .saw .arp).state = .off
    · rw [he, cupdSaw_off cfg b ho]; exact .inr (.inl rfl)
    · rw [he, cupdSaw_active cfg b ho]; exact .inr (.inr (.inl rfl))

/-- `UpdateAPU` leaves an envelope as it was or advances it once (spec R142). -/
theorem cupd_env_cases (ch : Channel) (v : Voice) (k : EnvKind) :
    (cupd cfg ch b).block.env v k = b.env v k ∨ (cupd cfg ch b).block.env v k = (b.env v k).advance := by
  by_cases hd : ch = .dmc
  · subst hd; exact .inl rfl
  · obtain ⟨w, -, h | h | h | ⟨p, hi, -, h⟩⟩ := cupd_block_cases cfg b hd <;> rw [h]
    · exact .inl rfl
    · rw [eadvOn_env]; split_ifs
      · exact .inr rfl
      · exact .inl rfl
    · rw [activeBlock_env]; split_ifs
      · exact .inr rfl
      · exact .inl rfl
    · rw [setPrevHi_env, activeBlock_env]; split_ifs
      · exact .inr rfl
      · exact .inl rfl

/-- CUPD leaves every channel's attributes alone (spec R140). -/
theorem cupd_chan (ch ch' : Channel) : (cupd cfg ch b).block.chan ch' = b.chan ch' := by
  by_cases hd : ch = .dmc
  · subst hd; rfl
  · obtain ⟨v, -, h | h | h | ⟨p, hi, -, h⟩⟩ := cupd_block_cases cfg b hd <;> rw [h] <;> rfl

/-- CUPD leaves the envelopes of every other channel alone (spec R180). -/
theorem cupd_env_other {ch : Channel} {v : Voice} (hv : voiceChannel v ≠ ch) (k : EnvKind) :
    (cupd cfg ch b).block.env v k = b.env v k := by
  by_cases hd : ch = .dmc
  · subst hd; rfl
  · obtain ⟨w, rfl, h | h | h | ⟨p, hi, -, h⟩⟩ := cupd_block_cases cfg b hd <;> rw [h]
    · rw [eadvOn_env, if_neg]; rintro ⟨rfl, -⟩; exact hv rfl
    · rw [activeBlock_env, if_neg]; rintro rfl; exact hv rfl
    · rw [setPrevHi_env, activeBlock_env, if_neg]; rintro rfl; exact hv rfl

/-- CUPD leaves the shadow of every Pulse of another channel alone (spec R28). -/
theorem cupd_prevHiOf_other {ch : Channel} {p : Fin 2} (hp : pulseChannel p ≠ ch) :
    (cupd cfg ch b).block.prevHiOf p = b.prevHiOf p := by
  by_cases hd : ch = .dmc
  · subst hd; rfl
  · obtain ⟨v, -, h | h | h | ⟨p', hi, hp', h⟩⟩ := cupd_block_cases cfg b hd <;> rw [h] <;> try rfl
    rw [prevHiOf_setPrevHi, if_neg]; · rfl
    rintro rfl; exact hp hp'

/-- CUPD of a voice leaves the DPCM channel's pending flags alone (spec R29). -/
theorem cupd_pending_other {ch : Channel} (hd : ch ≠ .dmc) :
    (cupd cfg ch b).block.pendingTrigger = b.pendingTrigger ∧ (cupd cfg ch b).block.pendingRelease = b.pendingRelease := by
  obtain ⟨v, -, h | h | h | ⟨p, hi, -, h⟩⟩ := cupd_block_cases cfg b hd <;> rw [h] <;> exact ⟨rfl, rfl⟩

end Variants

/-! ### Register bytes as numbers (spec R45) -/

theorem zext8_toNat {n : Nat} (h : n ≤ 8) (x : BitVec n) : (zext8 x).toNat = x.toNat := by
  simp only [zext8, BitVec.toNat_setWidth]
  have := x.isLt
  have : 2 ^ n ≤ 2 ^ 8 := Nat.pow_le_pow_right (by omega) h
  exact Nat.mod_eq_of_lt (by omega)

/-- The byte of `P_VOL` (spec R45, R147). -/
theorem pulseVol_eq (D : BitVec 2) (V : Int) :
    pulseVol D V = BitVec.ofNat 8 (64 * D.toNat + 0x30 + (V % 16).toNat) := by
  have h : ∀ (D : BitVec 2) (x : BitVec 4),
      (zext8 D <<< 6) ||| constBits ||| zext8 x = BitVec.ofNat 8 (64 * D.toNat + 0x30 + x.toNat) := by decide
  simp only [pulseVol, volField, h, BitVec.toNat_ofInt]
  norm_num

/-- The byte of `N_VOL` (spec R45, R149). -/
theorem noiseVol_eq (V : Int) : noiseVol V = BitVec.ofNat 8 (0x30 + (V % 16).toNat) := by
  have h : ∀ (x : BitVec 4), constBits ||| zext8 x = BitVec.ofNat 8 (0x30 + x.toNat) := by decide
  simp only [noiseVol, volField, h, BitVec.toNat_ofInt]
  norm_num

/-- The byte of `N_PER` (spec R45, R149). -/
theorem noisePer_eq (D : BitVec 1) (n : BitVec 4) :
    noisePer D n = BitVec.ofNat 8 (128 * D.toNat + (15 - n.toNat)) := by
  revert D n; decide

/-- The byte of `V_VOL` (spec R45, R150). -/
theorem vrc6Vol_eq (D : BitVec 3) (V : Int) : vrc6Vol D V = BitVec.ofNat 8 (16 * D.toNat + (V % 16).toNat) := by
  have h : ∀ (D : BitVec 3) (x : BitVec 4),
      (zext8 D <<< 4) ||| zext8 x = BitVec.ofNat 8 (16 * D.toNat + x.toNat) := by decide
  simp only [vrc6Vol, volField, h, BitVec.toNat_ofInt]
  norm_num

/-- The duty-only byte of `V_VOL` (spec R150). -/
theorem vrc6DutyOnly_eq (D : BitVec 3) : vrc6DutyOnly D = BitVec.ofNat 8 (16 * D.toNat) := by
  revert D; decide

/-- The byte of `S_VOL` (spec R45, R151). -/
theorem sawVol_eq (V : Int) : sawVol V = BitVec.ofNat 8 ((4 * V) % 64).toNat := by
  have h : ∀ (x : BitVec 6), zext8 x = BitVec.ofNat 8 x.toNat := by decide
  simp only [sawVol, h, BitVec.toNat_ofInt, mul_comm V 4]
  norm_num

/-- The byte of `P_HI` and `T_HI` (spec R45). -/
theorem periodHi_eq (P : Nat) : periodHi (coarse P) = BitVec.ofNat 8 (P / 256 % 8) := by
  have h : ∀ (x : BitVec 3), periodHi x = BitVec.ofNat 8 x.toNat := by decide
  rw [h]; simp [coarse]

/-- The byte of `V_HI` and `S_HI` (spec R45). -/
theorem vrc6Hi_eq (P : Nat) : vrc6Hi P = BitVec.ofNat 8 (0x80 + P / 256 % 16) := by
  have h : ∀ (x : BitVec 4), vrc6En ||| zext8 x = BitVec.ofNat 8 (0x80 + x.toNat) := by decide
  simp only [vrc6Hi, h]; simp

/-- The byte of `D_FREQ` (spec R45, R152). -/
theorem dpcmFreq_eq (pt : Patch) : dpcmFreq pt = BitVec.ofNat 8 ((if pt.loop then 64 else 0) + pt.pitch.toNat) := by
  have h : ∀ (l : Bool) (x : BitVec 4),
      (zext8 (BitVec.ofBool l) <<< 6) ||| zext8 x = BitVec.ofNat 8 ((if l then 64 else 0) + x.toNat) := by decide
  exact h pt.loop pt.pitch

end Sys2Proof.Machine
end

