-- ==== Sys2Proof/Laws/Exec.lean ====
section
/-! SUPPORT. What `exec` answers, said once: for an envelope command in terms of what it does to that one envelope and
what it returns, for each other command as one equation. -/

namespace Sys2Proof.Machine

/-- What an envelope command does to the envelope it addresses, and the value it returns from the envelope before; of no
meaning for a command that addresses none. -/
def envEffect : Instr → (Envelope → Envelope) × (Envelope → Value)
  | .etrig _ _ => (Envelope.trigger, fun _ => 0)
  | .erel _ _ => (Envelope.release, fun _ => 0)
  | .eadv _ _ => (Envelope.advance, Envelope.advanceValue Config.current)
  | .eslen _ _ n => ((·.setLength n), fun _ => 0)
  | .esloop _ _ n => ((·.setLoop n), fun _ => 0)
  | .esrel _ _ n => ((·.setRelease n), fun _ => 0)
  | .esdiv _ _ n => ((·.setDivider n), fun _ => 0)
  | .esval _ k i n => ((·.writeValue i (editValue Config.current k n)), fun _ => 0)
  | .eldval _ _ i n => ((·.writeValue i n), fun _ => 0)
  | .estep _ _ => (id, stepValue)
  | .egraw _ _ => (id, rawStepValue)
  | .egstate _ _ => (id, fun e => stateCode e.state)
  | .eglen _ _ => (id, fun e => counterValue e.length)
  | .egloop _ _ => (id, fun e => counterValue e.loopPoint)
  | .egrel _ _ => (id, fun e => counterValue e.releasePoint)
  | .egdiv _ _ => (id, fun e => counterValue e.speedDivider)
  | .egval _ _ i => (id, (·.value i))
  | .ctrig _ _ _ _ => (id, fun _ => 0)
  | .crel _ => (id, fun _ => 0)
  | .cbend _ _ => (id, fun _ => 0)
  | .ckeyt _ _ => (id, fun _ => 0)
  | .cvsens _ _ => (id, fun _ => 0)
  | .cupd _ => (id, fun _ => 0)
  | .frame => (id, fun _ => 0)

/-- A read on a voice, as a write-back of the envelope. -/
theorem readEnv_setEnv (v : Voice) (k : EnvKind) (s : State) (f : Envelope → Value) :
    readEnv (voiceChannel v) k s f =
      .next (s.complete (s.block.setEnv v k (s.block.env v k)) [] (f (s.block.env v k))) := by
  rw [setEnv_env]; exact readEnv_voice ..

/-- An envelope command on a voice: one envelope changes, no write is emitted, the response is `(OK, value)`. -/
theorem exec_env {i : Instr} {v : Voice} {k : EnvKind} (s : State) (h : i.envelope? = some (voiceChannel v, k)) :
    exec i s =
      .next (s.complete (s.block.setEnv v k ((envEffect i).1 (s.block.env v k))) [] ((envEffect i).2 (s.block.env v k))) := by
  cases i with
  | etrig ch k' => cases h; exact updateEnv_voice v k s _
  | erel ch k' => cases h; exact updateEnv_voice v k s _
  | eadv ch k' => cases h; exact onVoice_voice v s _
  | eslen ch k' n => cases h; exact updateEnv_voice v k s (·.setLength n)
  | esloop ch k' n => cases h; exact updateEnv_voice v k s (·.setLoop n)
  | esrel ch k' n => cases h; exact updateEnv_voice v k s (·.setRelease n)
  | esdiv ch k' n => cases h; exact updateEnv_voice v k s (·.setDivider n)
  | esval ch k' j n => cases h; exact updateEnv_voice v k s (·.writeValue j (editValue Config.current k n))
  | eldval ch k' j n => cases h; exact updateEnv_voice v k s (·.writeValue j n)
  | estep ch k' => cases h; exact readEnv_setEnv v k s stepValue
  | egraw ch k' => cases h; exact readEnv_setEnv v k s rawStepValue
  | egstate ch k' => cases h; exact readEnv_setEnv v k s fun e => stateCode e.state
  | eglen ch k' => cases h; exact readEnv_setEnv v k s fun e => counterValue e.length
  | egloop ch k' => cases h; exact readEnv_setEnv v k s fun e => counterValue e.loopPoint
  | egrel ch k' => cases h; exact readEnv_setEnv v k s fun e => counterValue e.releasePoint
  | egdiv ch k' => cases h; exact readEnv_setEnv v k s fun e => counterValue e.speedDivider
  | egval ch k' j => cases h; exact readEnv_setEnv v k s (·.value j)
  | ctrig ch note vel rt => cases h
  | crel ch => cases h
  | cbend ch n => cases h
  | ckeyt ch b => cases h
  | cvsens ch b => cases h
  | cupd ch => cases h
  | frame => cases h

/-- An envelope command on the DPCM channel is illegal (spec R62, R67). -/
theorem exec_env_dmc {i : Instr} {k : EnvKind} (s : State) (h : i.envelope? = some (.dmc, k)) :
    exec i s = .next (s.raiseIllegal .noSuchEnvelope) := by
  cases i <;> cases h <;> rfl

/-- An envelope command addresses a voice's envelope or is not well formed. -/
theorem envelope_cases {i : Instr} {ch : Channel} {k : EnvKind} (h : i.envelope? = some (ch, k)) :
    (∃ v, i.envelope? = some (voiceChannel v, k)) ∨ i.envelope? = some (.dmc, k) := by
  cases hv : voice? ch with
  | none => rw [voice?_eq_none] at hv; subst hv; exact .inr h
  | some v => rw [voice?_eq_some] at hv; subst hv; exact .inl ⟨v, h⟩

section Channels
variable (v : Voice) (ch : Channel) (note vel : BitVec 7) (rt x : Bool) (n : Value) (s : State)

theorem exec_ctrig_voice :
    exec (.ctrig (voiceChannel v) note vel rt) s = .next (s.complete (trigVoice v note vel rt s.block) [] 0) := by
  simp only [exec, execCtrig, voice?_voiceChannel]
theorem exec_ctrig_dmc : exec (.ctrig .dmc note vel rt) s = .next (s.complete (trigDpcm note s.block) [] 0) := rfl
theorem exec_crel_voice :
    exec (.crel (voiceChannel v)) s = .next (s.complete (s.block.mapVoice v Envelope.release) [] 0) := by
  simp only [exec, execCrel, voice?_voiceChannel]
theorem exec_crel_dmc : exec (.crel .dmc) s = .next (s.complete { s.block with pendingRelease := true } [] 0) := rfl
theorem exec_cbend :
    exec (.cbend ch n) s = .next (s.complete (s.block.setChan ch { s.block.chan ch with bend := n }) [] 0) := rfl
theorem exec_ckeyt :
    exec (.ckeyt ch x) s = .next (s.complete (s.block.setChan ch { s.block.chan ch with keyTrackEnabled := x }) [] 0) :=
  rfl
theorem exec_cvsens :
    exec (.cvsens ch x) s =
      .next (s.complete (s.block.setChan ch { s.block.chan ch with velocitySensEnabled := x }) [] 0) := rfl
theorem exec_cupd :
    exec (.cupd ch) s =
      .next (s.complete (cupd Config.current ch s.block).block (cupd Config.current ch s.block).writes 0) := rfl
theorem exec_frame :
    exec .frame s =
      .next (s.complete (cupdAll Config.current allChannels s.block).block
        (cupdAll Config.current allChannels s.block).writes 0) := rfl

/-- A channel is a voice's or the DPCM channel. -/
theorem channel_cases : (∃ v, ch = voiceChannel v) ∨ ch = .dmc := by
  cases hv : voice? ch with
  | none => exact .inr (voice?_eq_none.mp hv)
  | some v => exact .inl ⟨v, (voice?_eq_some.mp hv).symm⟩

end Channels

/-- Every command completes (spec R166). -/
theorem exec_next (i : Instr) (s : State) : ∃ t, exec i s = .next t := by
  cases he : i.envelope? with
  | some x =>
    obtain ⟨ch, k⟩ := x
    obtain ⟨v, h⟩ | h := envelope_cases he
    · exact ⟨_, exec_env s h⟩
    · exact ⟨_, exec_env_dmc s h⟩
  | none =>
    cases i <;> first | cases he; done | skip
    case ctrig ch note vel rt =>
      obtain ⟨v, rfl⟩ | rfl := channel_cases ch
      · exact ⟨_, exec_ctrig_voice ..⟩
      · exact ⟨_, rfl⟩
    case crel ch =>
      obtain ⟨v, rfl⟩ | rfl := channel_cases ch
      · exact ⟨_, exec_crel_voice ..⟩
      · exact ⟨_, rfl⟩
    all_goals exact ⟨_, rfl⟩

/-- The four envelopes of a voice after a fan-out, and every other (spec R117, R119). -/
theorem mapVoice_env (b : Block) (v : Voice) (f : Envelope → Envelope) (v' : Voice) (k : EnvKind) :
    (b.mapVoice v f).env v' k = if v' = v then f (b.env v' k) else b.env v' k := by
  simp only [Block.mapVoice, allKinds, List.foldl, env_setEnv]
  by_cases h : v' = v
  · subst h; cases k <;> simp
  · simp [h]

theorem mapVoice_sameChannels (b : Block) (v : Voice) (f : Envelope → Envelope) : SameChannels b (b.mapVoice v f) :=
  ⟨fun _ => rfl, fun _ => rfl, rfl, rfl⟩

end Sys2Proof.Machine
end

