-- ==== Sys2Proof/Laws/PerInstr.lean ====
section
/-! SUPPORT. The per-instruction families of LAWS.json. -/

namespace Sys2Proof.Laws

/-- The word of a command carries its opcode, and RSV and every field its format does not use are zero (spec R60, R61,
R64): the first two checks of the decoder pass on it. -/
def Framed.Statement (i : Instr) : Prop :=
  opcOf (encode i) = i.opcode.code ∧ i.opcode.format.fieldsOk (encode i) = true

theorem framed_e0 (o : Opcode) (ch : Channel) (k : EnvKind) (h : o.format = .e0) :
    opcOf (wordE0 o ch k) = o.code ∧ o.format.fieldsOk (wordE0 o ch k) = true := by
  simp [h, wordE0, Format.fieldsOk, opcOf_packWord, rsvOf_packWord, idxOf_packWord, immOf_packWord, Format.usesCh,
    Format.usesEnv]

theorem framed_ei (o : Opcode) (ch : Channel) (k : EnvKind) (n : Value) (h : o.format = .ei) :
    opcOf (wordEI o ch k n) = o.code ∧ o.format.fieldsOk (wordEI o ch k n) = true := by
  simp [h, wordEI, Format.fieldsOk, opcOf_packWord, rsvOf_packWord, idxOf_packWord, Format.usesCh, Format.usesEnv,
    Format.immZero]

theorem framed_exi (o : Opcode) (ch : Channel) (k : EnvKind) (i : Fin 64) (n : Value) (h : o.format = .exi) :
    opcOf (wordEXI o ch k i n) = o.code ∧ o.format.fieldsOk (wordEXI o ch k i n) = true := by
  simp [h, wordEXI, Format.fieldsOk, opcOf_packWord, rsvOf_packWord, Format.usesCh, Format.usesEnv, Format.usesIdx,
    Format.immZero]

theorem framed_ci (o : Opcode) (ch : Channel) (n : Value) (hc : o.format.usesCh = true)
    (hn : n &&& o.format.immZero = 0) :
    opcOf (wordCI o ch n) = o.code ∧ o.format.fieldsOk (wordCI o ch n) = true := by
  simp [wordCI, Format.fieldsOk, opcOf_packWord, rsvOf_packWord, envOf_packWord, idxOf_packWord, immOf_packWord, hc, hn]

namespace Framed
theorem etrig (ch : Channel) (k : EnvKind) : Statement (.etrig ch k) := framed_e0 .etrig ch k rfl
theorem erel (ch : Channel) (k : EnvKind) : Statement (.erel ch k) := framed_e0 .erel ch k rfl
theorem eadv (ch : Channel) (k : EnvKind) : Statement (.eadv ch k) := framed_e0 .eadv ch k rfl
theorem eslen (ch : Channel) (k : EnvKind) (n : Value) : Statement (.eslen ch k n) := framed_ei .eslen ch k n rfl
theorem esloop (ch : Channel) (k : EnvKind) (n : Value) : Statement (.esloop ch k n) := framed_ei .esloop ch k n rfl
theorem esrel (ch : Channel) (k : EnvKind) (n : Value) : Statement (.esrel ch k n) := framed_ei .esrel ch k n rfl
theorem esdiv (ch : Channel) (k : EnvKind) (n : Value) : Statement (.esdiv ch k n) := framed_ei .esdiv ch k n rfl
theorem esval (ch : Channel) (k : EnvKind) (i : Fin 64) (n : Value) : Statement (.esval ch k i n) :=
  framed_exi .esval ch k i n rfl
theorem eldval (ch : Channel) (k : EnvKind) (i : Fin 64) (n : Value) : Statement (.eldval ch k i n) :=
  framed_exi .eldval ch k i n rfl
theorem estep (ch : Channel) (k : EnvKind) : Statement (.estep ch k) := framed_e0 .estep ch k rfl
theorem egraw (ch : Channel) (k : EnvKind) : Statement (.egraw ch k) := framed_e0 .egraw ch k rfl
theorem egstate (ch : Channel) (k : EnvKind) : Statement (.egstate ch k) := framed_e0 .egstate ch k rfl
theorem eglen (ch : Channel) (k : EnvKind) : Statement (.eglen ch k) := framed_e0 .eglen ch k rfl
theorem egloop (ch : Channel) (k : EnvKind) : Statement (.egloop ch k) := framed_e0 .egloop ch k rfl
theorem egrel (ch : Channel) (k : EnvKind) : Statement (.egrel ch k) := framed_e0 .egrel ch k rfl
theorem egdiv (ch : Channel) (k : EnvKind) : Statement (.egdiv ch k) := framed_e0 .egdiv ch k rfl
theorem egval (ch : Channel) (k : EnvKind) (i : Fin 64) : Statement (.egval ch k i) := by
  simp [Statement, Instr.opcode, encode, wordEXI, Opcode.format, Format.fieldsOk, opcOf_packWord, rsvOf_packWord,
    immOf_packWord, Format.usesCh, Format.usesEnv, Format.usesIdx]
theorem ctrig (ch : Channel) (note vel : BitVec 7) (rt : Bool) : Statement (.ctrig ch note vel rt) :=
  framed_ci .ctrig ch _ rfl (ctImm_zero note vel rt)
theorem crel (ch : Channel) : Statement (.crel ch) := framed_ci .crel ch 0 rfl (by decide)
theorem cbend (ch : Channel) (n : Value) : Statement (.cbend ch n) :=
  framed_ci .cbend ch n rfl (by simp [Opcode.format, Format.immZero])
theorem ckeyt (ch : Channel) (b : Bool) : Statement (.ckeyt ch b) := framed_ci .ckeyt ch _ rfl (cfImm_zero b)
theorem cvsens (ch : Channel) (b : Bool) : Statement (.cvsens ch b) := framed_ci .cvsens ch _ rfl (cfImm_zero b)
theorem cupd (ch : Channel) : Statement (.cupd ch) := framed_ci .cupd ch 0 rfl (by decide)
theorem frame : Statement .frame := ⟨by decide, by decide⟩
end Framed

end Sys2Proof.Laws
end

