-- ==== Sys2Proof/Machine/Period.lean ====
section
/-! DEFINITION. The default configuration of the spec, for simulation (spec R5, R129): the default bounds, BEND_DIV = 1,
an empty DPCM table and the default CLKDIV. The machine does not use it: it runs under `Config.current`. The tests run
the block's operations under it (log 12). -/

namespace Sys2Proof.Machine

/-- The bits below `2^k` of a root, high to low: the greatest `s` in `[r, r + 2^k)` with `s^q ≤ x`, if `r^q ≤ x`. -/
def rootBits (q x : Nat) : (k r : Nat) → Nat
  | 0, r => r
  | k + 1, r => rootBits q x k (if (r + 2 ^ k) ^ q ≤ x then r + 2 ^ k else r)

/-- The integer `q`-th root of an `x` below `(2^k)^q`, for `q > 0`: the greatest natural number whose `q`-th power is at
most `x`. -/
def natRoot (q k x : Nat) : Nat := rootBits q x k 0

/-- K of the default CLKDIV (spec R129). -/
def clkDivisor : Tone → Nat
  | .pulse => 16
  | .vrc6Pulse => 16
  | .triangle => 32
  | .vrc6Saw => 14

/-- `floor(1789773 / (K * freq) + 0.5) - 1` for `freq = 8.1757989156 * 2^(n12/144) * 2^((bend/65536)/BEND_DIV)` (spec
R128, R129), exact over the reals (`defaultPeriodFn_eq`, Laws/Period.lean). The exponent of 2 is `octave + f/q` in lowest
terms; `natRoot` gives `floor(z)` for `z = 2 * 1789773 / (K * freq)`, which is below `2^15 * 2^(-octave)`, from the `q`-th
power of `z` rounded down, and `floor(z/2 + 1/2)` is taken of it. -/
def defaultPeriodFn (bendDiv : Nat) (t : Tone) (n12 bend : Int) : Int :=
  let den : Nat := 144 * 65536 * bendDiv
  let num : Int := n12 * 65536 * bendDiv + 144 * bend
  let g := num.gcd den
  let q := den / g
  let octave := num / g / q
  let f := (num / g % q).toNat
  let a := 2 * 1789773 * 10 ^ 10 * 2 ^ (-octave).toNat
  let b := clkDivisor t * 81757989156 * 2 ^ octave.toNat
  ((natRoot q (15 + (-octave).toNat) (a ^ q / (b ^ q * 2 ^ f)) + 1) / 2 : Nat) - 1

/-- The default bounds' magnitudes below zero (spec R5). -/
def defaultMinMag : EnvKind → Nat
  | .vol => 0
  | .duty => 0
  | .arp => 96
  | .pitch => 96

/-- The default bounds above zero (spec R5). -/
def defaultMaxMag : EnvKind → Nat
  | .vol => 15
  | .duty => 7
  | .arp => 96
  | .pitch => 96

/-- The default configuration (spec R5, R129). The free value of `beyondTable` is never read in a reachable state. -/
def defaultConfig : Config where
  minMag := defaultMinMag
  maxMag := defaultMaxMag
  bendDiv := 1
  periodFn := defaultPeriodFn
  patches := fun _ => none
  sampleLens := []
  beyondTable := fun _ => 0

end Sys2Proof.Machine
end

