-- ==== Sys2Proof/Laws/Period.lean ====
section
/-! SUPPORT. The default period function is the spec's formula over the reals, exactly (spec R128, R129). -/

namespace Sys2Proof.Machine

/-- What the bit search finds. -/
theorem rootBits_spec {q x k r : Nat} (hr : r ^ q ≤ x) (hx : x < (r + 2 ^ k) ^ q) :
    rootBits q x k r ^ q ≤ x ∧ x < (rootBits q x k r + 1) ^ q := by
  induction k generalizing r with
  | zero => exact ⟨hr, hx⟩
  | succ k ih =>
    rw [rootBits]
    split_ifs with h
    · exact ih h (by rwa [Nat.add_assoc, ← Nat.two_mul, ← Nat.pow_succ'])
    · exact ih hr (by omega)

/-- The integer root (spec R10: floor). -/
theorem natRoot_spec {q k x : Nat} (hq : 0 < q) (hx : x < (2 ^ k) ^ q) :
    natRoot q k x ^ q ≤ x ∧ x < (natRoot q k x + 1) ^ q :=
  rootBits_spec (by simp [hq.ne']) (by simpa using hx)

/-- The integer root of the floor of a power is the floor of its base. -/
theorem natRoot_floor {q k : Nat} (hq : 0 < q) {z : ℝ} (hz : 0 ≤ z) (hk : z < 2 ^ k) : natRoot q k ⌊z ^ q⌋₊ = ⌊z⌋₊ := by
  obtain ⟨h1, h2⟩ := natRoot_spec (k := k) (x := ⌊z ^ q⌋₊) hq (by
    rw [Nat.floor_lt (by positivity)]; push_cast; exact pow_lt_pow_left₀ hk hz hq.ne')
  symm
  rw [Nat.floor_eq_iff hz]
  constructor
  · rw [Nat.le_floor_iff (by positivity)] at h1
    push_cast at h1
    exact le_of_pow_le_pow_left₀ hq.ne' hz h1
  · rw [Nat.floor_lt (by positivity)] at h2
    push_cast at h2
    exact lt_of_pow_lt_pow_left₀ q (by positivity) h2

/-- The root the default PERIODFN takes is the floor of `a / (b * 2^(f/q))`. -/
theorem natRoot_ratio {q k a b : Nat} (hq : 0 < q) (hb : 0 < b) (ha : a < 2 ^ k * b) (f : Nat) :
    natRoot q k (a ^ q / (b ^ q * 2 ^ f)) = ⌊(a : ℝ) / (b * 2 ^ ((f : ℝ) / q))⌋₊ := by
  have hb' : (0 : ℝ) < b := by exact_mod_cast hb
  have ha' : (a : ℝ) < 2 ^ k * b := by exact_mod_cast ha
  have hp : (1 : ℝ) ≤ 2 ^ ((f : ℝ) / q) := Real.one_le_rpow (by norm_num) (by positivity)
  have hlt : (a : ℝ) / (b * 2 ^ ((f : ℝ) / q)) < 2 ^ k := by
    rw [div_lt_iff₀ (by positivity), ← mul_assoc]
    exact ha'.trans_le (le_mul_of_one_le_right (by positivity) hp)
  rw [← natRoot_floor hq (by positivity) hlt, ← Nat.floor_div_eq_div (K := ℝ), div_pow, mul_pow,
    ← Real.rpow_mul_natCast (by norm_num), div_mul_cancel₀ _ (by positivity), Real.rpow_natCast]
  push_cast; rfl

/-- Rounding half up from the floor of the double. -/
theorem floor_half_add {z : ℝ} (hz : 0 ≤ z) : ⌊z / 2 + 0.5⌋ = ((⌊z⌋₊ + 1) / 2 : Nat) := by
  have h1 := Nat.floor_le hz
  have h2 := Nat.lt_floor_add_one z
  generalize ⌊z⌋₊ = n at h1 h2
  have h3 : 2 * ((n + 1) / 2) ≤ n + 1 := by omega
  have h4 : n + 1 ≤ 2 * ((n + 1) / 2) + 1 := by omega
  generalize (n + 1) / 2 = m at h3 h4
  have h3' : (2 * m : ℝ) ≤ n + 1 := by exact_mod_cast h3
  have h4' : (n + 1 : ℝ) ≤ 2 * m + 1 := by exact_mod_cast h4
  rw [Int.floor_eq_iff]
  push_cast
  constructor <;> linarith

/-- A fraction in lowest terms, as a whole number and a remainder over the denominator. -/
theorem lowestTerms {den : Nat} (hd : 0 < den) (num : Int) :
    0 < den / num.gcd den ∧
      ((num / num.gcd den / (den / num.gcd den : Nat) : Int) : ℝ) +
        (num / num.gcd den % (den / num.gcd den : Nat)).toNat / (den / num.gcd den : Nat) = num / den := by
  have hg : 0 < num.gcd den := Int.gcd_pos_of_ne_zero_right _ (by omega)
  obtain ⟨q, hq⟩ : num.gcd den ∣ den := by exact_mod_cast Int.gcd_dvd_right (a := num) (b := den)
  obtain ⟨e, he⟩ := Int.gcd_dvd_left (a := num) (b := den)
  generalize num.gcd den = g at *
  subst hq he
  rw [Nat.mul_div_cancel_left _ hg, Int.mul_ediv_cancel_left _ (by omega)]
  have h0 : 0 < q := Nat.pos_of_mul_pos_left hd
  refine ⟨h0, ?_⟩
  have h1 := Int.mul_ediv_add_emod e q
  have h2 := Int.emod_nonneg e (b := q) (by omega)
  obtain ⟨f, hf⟩ := Int.eq_ofNat_of_zero_le h2
  rw [hf] at h1 ⊢
  have h3 : (q * (e / q : Int) + f : ℝ) = e := by exact_mod_cast h1
  rw [Int.toNat_natCast]
  push_cast
  rw [← h3]
  field_simp

/-- A power of 2 with an integer exponent, as the quotient the default PERIODFN forms. -/
theorem two_pow_split (o : Int) : (2 : ℝ) ^ (o : ℝ) = 2 ^ o.toNat / 2 ^ (-o).toNat := by
  rw [Real.rpow_intCast, ← zpow_natCast, ← zpow_natCast, ← zpow_sub₀ (by norm_num)]
  congr 1; omega

/-- The default PERIODFN is the formula of spec R128 and R129, for every operand and every BEND_DIV but 0. -/
theorem defaultPeriodFn_eq {bendDiv : Nat} (hb : 0 < bendDiv) (t : Tone) (n12 bend : Int) :
    defaultPeriodFn bendDiv t n12 bend =
      ⌊1789773 / ((clkDivisor t : ℝ) * (8.1757989156 * 2 ^ ((n12 : ℝ) / 144) * 2 ^ ((bend : ℝ) / 65536 / bendDiv))) +
        0.5⌋ - 1 := by
  obtain ⟨hq, hx⟩ := lowestTerms (den := 144 * 65536 * bendDiv) (by omega) (n12 * 65536 * bendDiv + 144 * bend)
  have hk : 14 ≤ clkDivisor t := by cases t <;> decide
  simp only [defaultPeriodFn]
  set den := 144 * 65536 * bendDiv with hden
  set num := n12 * 65536 * bendDiv + 144 * bend with hnum
  set q := den / num.gcd den
  set o := num / num.gcd den / (q : Int)
  set f := (num / num.gcd den % (q : Int)).toNat
  have hlt : 2 * 1789773 * 10 ^ 10 * 2 ^ (-o).toNat <
      2 ^ (15 + (-o).toNat) * (clkDivisor t * 81757989156 * 2 ^ o.toNat) := by
    have h1 : 1 ≤ 2 ^ o.toNat := Nat.one_le_two_pow
    have h2 : 14 * 1 ≤ clkDivisor t * 2 ^ o.toNat := Nat.mul_le_mul hk h1
    calc 2 * 1789773 * 10 ^ 10 * 2 ^ (-o).toNat
        < 2 ^ 15 * 81757989156 * (14 * 1) * 2 ^ (-o).toNat := Nat.mul_lt_mul_of_pos_right (by norm_num) (by positivity)
      _ ≤ 2 ^ 15 * 81757989156 * (clkDivisor t * 2 ^ o.toNat) * 2 ^ (-o).toNat := by gcongr
      _ = _ := by rw [pow_add]; ring
  rw [natRoot_ratio hq (by positivity) hlt, ← floor_half_add (by positivity)]
  congr 3
  have hexp : (n12 : ℝ) / 144 + (bend : ℝ) / 65536 / bendDiv = o + f / q := by
    rw [hx, hnum, hden]; push_cast; field_simp; ring
  rw [mul_assoc (8.1757989156 : ℝ), ← Real.rpow_add (by norm_num), hexp, Real.rpow_add (by norm_num), two_pow_split]
  have hK : (0 : ℝ) < clkDivisor t := by positivity
  push_cast
  field_simp
  norm_num

end Sys2Proof.Machine
end

