-- ==== Sys2Proof/Tests/Slice0.lean ====
section
/-! SUPPORT. The model's own tests. Expected results are the spec's: its vectors (spec/95_test_vectors.md, named beside
each test) or its encodings. Traces that depend on an open parameter are computed under the spec's default configuration
(R5, R129). The second half gives each statement's hypotheses a witness. -/

namespace Sys2Proof.Tests

open Sys2Proof.Machine Sys2Proof.Stmt

/-! ### Well-formedness: an envelope command on channel 4 is refused (spec R62) -/

theorem test_wf_refuses_dmc_envelopes :
    ([.etrig .dmc .vol, .erel .dmc .vol, .eadv .dmc .vol, .eslen .dmc .vol 1, .esloop .dmc .vol 1, .esrel .dmc .vol 1,
      .esdiv .dmc .vol 1, .esval .dmc .vol 0 1, .eldval .dmc .vol 0 1, .estep .dmc .vol, .egraw .dmc .vol,
      .egstate .dmc .vol, .eglen .dmc .vol, .egloop .dmc .vol, .egrel .dmc .vol, .egdiv .dmc .vol,
      .egval .dmc .vol 0] : List Instr).all (fun i => !i.wf) = true := by decide

theorem test_wf_accepts_dmc_channel_commands :
    ([.ctrig .dmc 62 0 true, .crel .dmc, .cbend .dmc 1, .ckeyt .dmc true, .cvsens .dmc true, .cupd .dmc, .frame] :
      List Instr).all Instr.wf = true := by decide

/-! ### Decoding: one word for each command (spec/95_test_vectors.md) -/

def decodes (w : CommandWord) (i : Instr) : Bool :=
  match decode w with
  | .ok j => j == i
  | .error _ => false

def refuses (w : CommandWord) (c : Illegal) : Bool :=
  match decode w with
  | .ok _ => false
  | .error d => d == c

theorem test_decode_etrig : decodes 0x1040000000000000 (.etrig .tri .vol) = true := by decide
theorem test_decode_erel : decodes 0x11B0000000000000 (.erel .v1 .arp) = true := by decide
theorem test_decode_eadv : decodes 0x1228000000000000 (.eadv .p2 .duty) = true := by decide
theorem test_decode_eslen : decodes 0x14E00000FFFFFFFF (.eslen .saw .vol (-1)) = true := by decide
theorem test_decode_esloop : decodes 0x1528000000000002 (.esloop .p2 .duty 2) = true := by decide
theorem test_decode_esrel : decodes 0x16F8000000000010 (.esrel .saw .pitch 16) = true := by decide
theorem test_decode_esdiv : decodes 0x17F80000FFFFFFFB (.esdiv .saw .pitch (-5)) = true := by decide
theorem test_decode_esval : decodes 0x18FFE000FFFFFFA0 (.esval .saw .pitch 63 (-96)) = true := by decide
theorem test_decode_eldval : decodes 0x1900600000000063 (.eldval .p1 .vol 3 99) = true := by decide
theorem test_decode_estep : decodes 0x20B0000000000000 (.estep .v1 .arp) = true := by decide
theorem test_decode_egraw : decodes 0x21F8000000000000 (.egraw .saw .pitch) = true := by decide
theorem test_decode_egstate : decodes 0x2240000000000000 (.egstate .tri .vol) = true := by decide
theorem test_decode_eglen : decodes 0x2400000000000000 (.eglen .p1 .vol) = true := by decide
theorem test_decode_egloop : decodes 0x2500000000000000 (.egloop .p1 .vol) = true := by decide
theorem test_decode_egrel : decodes 0x2600000000000000 (.egrel .p1 .vol) = true := by decide
theorem test_decode_egdiv : decodes 0x27F8000000000000 (.egdiv .saw .pitch) = true := by decide
theorem test_decode_egval : decodes 0x280FE00000000000 (.egval .p1 .duty 63) = true := by decide
theorem test_decode_ctrig : decodes 0x3060000000014028 (.ctrig .noi 40 64 true) = true := by decide
theorem test_decode_crel : decodes 0x31C0000000000000 (.crel .v2) = true := by decide
theorem test_decode_cbend : decodes 0x32C00000FFFF0000 (.cbend .v2 (-65536)) = true := by decide
theorem test_decode_ckeyt : decodes 0x3380000000000001 (.ckeyt .dmc true) = true := by decide
theorem test_decode_cvsens : decodes 0x34E0000000000000 (.cvsens .saw false) = true := by decide
theorem test_decode_cupd : decodes 0x3880000000000000 (.cupd .dmc) = true := by decide
theorem test_decode_frame : decodes 0x3900000000000000 .frame = true := by decide

/-- Field by field from spec R60, R63: OPC, CH, ENV, IDX, RSV, IMM; one command of each family. -/
theorem test_decode_bits :
    decodes (0b00010010#8 ++ 0b101#3 ++ 0b10#2 ++ 0b000000#6 ++ 0#13 ++ 0#32) (.eadv .v1 .arp) = true ∧
    decodes (0b00011000#8 ++ 0b011#3 ++ 0b11#2 ++ 0b000101#6 ++ 0#13 ++ 0b111#32) (.esval .noi .pitch 5 7) = true ∧
    decodes (0b00110000#8 ++ 0b110#3 ++ 0b00#2 ++ 0b000000#6 ++ 0#13 ++
      (0#15 ++ 1#1 ++ 0#1 ++ 0b1000001#7 ++ 0#1 ++ 0b0100010#7)) (.ctrig .v2 34 65 true) = true ∧
    decodes (0b00111000#8 ++ 0b111#3 ++ 0b00#2 ++ 0b000000#6 ++ 0#13 ++ 0#32) (.cupd .saw) = true := by decide

/-- V-ENC2. -/
theorem test_decode_illegal :
    refuses 0x0000000000000000 .reservedOpcode ∧ refuses 0xFFFFFFFFFFFFFFFF .reservedOpcode ∧
    refuses 0x1300000000000000 .reservedOpcode ∧ refuses 0x1000000100000000 .reservedField ∧
    refuses 0x1000000000000001 .reservedField ∧ refuses 0x1200200000000000 .reservedField ∧
    refuses 0x3808000000000000 .reservedField ∧ refuses 0x3920000000000000 .reservedField ∧
    refuses 0x3300000000000002 .reservedField ∧ refuses 0x3000000000000080 .reservedField ∧
    refuses 0x3000000000008000 .reservedField ∧ refuses 0x3000000000020000 .reservedField ∧
    refuses 0x1080000000000000 .noSuchEnvelope ∧ refuses 0x2880000000000000 .noSuchEnvelope ∧
    refuses 0x1080000000000001 .reservedField := by decide

/-! ### Small states -/

/-- The reset state with one envelope changed. -/
def withEnv (v : Voice) (k : EnvKind) (f : Envelope → Envelope) : State :=
  { State.reset with block := State.reset.block.setEnv v k (f (State.reset.block.env v k)) }

/-- The machine's next state, or the state itself if there is none. -/
def after (i : Instr) (s : State) : State :=
  match exec i s with
  | .next t => t
  | .fault _ => s
  | .refused _ => s

/-- The last response's value. -/
def lastValue (s : State) : Option Int := s.responses.getLast?.map fun r => r.value.toInt

/-- A trace as numbers. -/
def nums (ws : List ApuWrite) : List (Nat × Nat) := ws.map fun w => (w.addr.toNat, w.data.toNat)

/-- (loop, release, length) of an envelope. -/
def triple (e : Envelope) : Nat × Nat × Nat := (e.loopPoint, e.releasePoint, e.length)

/-- The reset envelope with (2, 5, 8, 1). -/
def e258 (e : Envelope) : Envelope := { e with loopPoint := 2, releasePoint := 5, length := 8 }

/-! ### Envelope playback -/

/-- R81's example. -/
theorem test_etrig_from_off :
    ((after (.etrig .p1 .vol) (withEnv .p1 .vol fun e => { e with step := 9 })).block.env .p1 .vol).step = 0 ∧
    ((after (.etrig .p1 .vol) State.reset).block.env .p1 .vol).state = .initial := by decide

/-- R82's example: (2, 5, 8, 2) gives step 10, Release. -/
theorem test_erel_tail :
    ((after (.erel .p1 .vol) (withEnv .p1 .vol fun e => { e258 e with speedDivider := 2 })).block.env .p1 .vol).step = 10 ∧
    ((after (.erel .p1 .vol) (withEnv .p1 .vol e258)).block.env .p1 .vol).state = .release := by decide

/-- S3: release = length goes Off. -/
theorem test_erel_without_tail : ((after (.erel .tri .vol) State.reset).block.env .tri .vol).state = .off := by decide

/-- R83's example and S4: at step 4 of (2, 5, 8, 1) the value is entry 4 and the step wraps to 2. -/
theorem test_eadv_wraps :
    let s := withEnv .p2 .duty fun e => (({ e258 e with step := 4, state := .initial }).writeValue 4 44).writeValue 5 55
    lastValue (after (.eadv .p2 .duty) s) = some 44 ∧ ((after (.eadv .p2 .duty) s).block.env .p2 .duty).step = 2 := by
  decide

/-- V-PB4: the call that enters Off returns 0, not the last entry. -/
theorem test_eadv_enters_off :
    let s := withEnv .p1 .vol fun e => ({ e with releasePoint := 2, length := 4, step := 3, state := .release }).writeValue 3 6
    lastValue (after (.eadv .p1 .vol) s) = some 0 ∧ ((after (.eadv .p1 .vol) s).block.env .p1 .vol).state = .off := by
  decide

/-- V-PB1 and V-PB6: -1 while Off, else the index, beyond the length too. -/
theorem test_estep :
    lastValue (after (.estep .p1 .vol) State.reset) = some (-1) ∧
    lastValue (after (.estep .v1 .vol) (withEnv .v1 .vol fun e =>
      { e with releasePoint := 4, length := 4, speedDivider := 4, step := 50, state := .initial })) = some 12 := by decide

/-- R86: saturation at 2^31 - 1. -/
theorem test_egraw_saturates :
    lastValue (after (.egraw .p1 .vol) (withEnv .p1 .vol fun e => { e with step := 2 ^ 31 + 5 })) = some 2147483647 := by
  decide

/-- R87: the codes. -/
theorem test_egstate :
    lastValue (after (.egstate .p1 .vol) State.reset) = some 2 ∧
    lastValue (after (.egstate .p1 .vol) (withEnv .p1 .vol fun e => { e with state := .release })) = some 1 := by decide

/-! ### Envelope configuration (V-CFG1, V-CFG2) -/

theorem test_eslen :
    triple ((after (.eslen .p1 .vol 2) (withEnv .p1 .vol e258)).block.env .p1 .vol) = (1, 2, 2) ∧
    triple ((after (.eslen .p1 .vol (-7)) (withEnv .p1 .vol e258)).block.env .p1 .vol) = (0, 1, 1) := by decide

theorem test_esloop :
    triple ((after (.esloop .p1 .vol 5) (withEnv .p1 .vol e258)).block.env .p1 .vol) = (5, 6, 8) ∧
    triple ((after (.esloop .p1 .vol 64) (withEnv .p1 .vol e258)).block.env .p1 .vol) = (63, 64, 64) := by decide

theorem test_esrel :
    triple ((after (.esrel .p1 .vol 2) (withEnv .p1 .vol e258)).block.env .p1 .vol) = (1, 2, 8) ∧
    triple ((after (.esrel .p1 .vol 12) (withEnv .p1 .vol e258)).block.env .p1 .vol) = (2, 12, 12) := by decide

/-- V-CFG5's flooring and V-CFG6's clamp. -/
theorem test_esdiv :
    ((after (.esdiv .p1 .vol 2) (withEnv .p1 .vol fun e =>
      { e258 e with speedDivider := 3, step := 7 })).block.env .p1 .vol).step = 4 ∧
    ((after (.esdiv .p1 .vol 2) (withEnv .p1 .vol fun e =>
      { e with releasePoint := 4, length := 4, speedDivider := 4, step := 50 })).block.env .p1 .vol).step = 7 := by decide

/-- V-CFG7 under the default bounds. -/
theorem test_esval_clamps :
    (editValue defaultConfig .vol 99).toInt = 15 ∧ (editValue defaultConfig .arp (-97)).toInt = -96 := by decide

/-- V-CFG7: the load is raw. -/
theorem test_eldval_raw :
    lastValue (after (.egval .p1 .vol 0) (after (.eldval .p1 .vol 0 0x80000000) State.reset)) = some (-2147483648) := by
  decide

theorem test_readbacks :
    lastValue (after (.eglen .p1 .vol) (withEnv .p1 .vol e258)) = some 8 ∧
    lastValue (after (.egloop .p1 .vol) (withEnv .p1 .vol e258)) = some 2 ∧
    lastValue (after (.egrel .p1 .vol) (withEnv .p1 .vol e258)) = some 5 ∧
    lastValue (after (.egdiv .p1 .vol) (withEnv .p1 .vol e258)) = some 1 := by decide

/-! ### Channel control -/

/-- V-CH3: a retrigger with key-track off. -/
theorem test_ctrig_key_track_off :
    ((after (.ctrig .p1 100 1 true) (after (.ckeyt .p1 false) State.reset)).block.chan .p1).baseNote = 64 ∧
    ((after (.ctrig .p1 100 1 true) (after (.ckeyt .p1 false) State.reset)).block.chan .p1).vel = 1 := by decide

/-- V-CH3: the legato form leaves the velocity and the envelopes. -/
theorem test_ctrig_legato :
    ((after (.ctrig .p1 81 0 false) State.reset).block.chan .p1).vel = 127 ∧
    ((after (.ctrig .p1 81 0 false) State.reset).block.env .p1 .arp).state = .off := by decide

/-- R119's example: ARP (0, 1, 1) goes Off, VOL (0, 4, 8) to Release. -/
theorem test_crel_splits :
    let s := after (.crel .p1) (withEnv .p1 .vol fun e => { e with releasePoint := 4, length := 8 })
    (s.block.env .p1 .arp).state = .off ∧ (s.block.env .p1 .vol).state = .release := by decide

theorem test_crel_dmc : (after (.crel .dmc) State.reset).block.pendingRelease = true := by decide

theorem test_cbend : ((after (.cbend .p1 (-65536)) State.reset).block.chan .p1).bend.toInt = -65536 := by decide

theorem test_cvsens : ((after (.cvsens .saw false) State.reset).block.chan .saw).velocitySensEnabled = false := by decide

/-! ### The internal reads -/

/-- V-CH1. -/
theorem test_volume :
    let c := fun (x : BitVec 7) => { Chan.reset with vel := x }
    scaledVolume (c 64) 15 = 8 ∧ scaledVolume (c 126) 1 = 1 ∧ scaledVolume (c 64) (-1) = 0 ∧
    scaledVolume (c 127) (-15) = -15 ∧ scaledVolume { c 1 with velocitySensEnabled := false } 10 = 10 := by decide

/-- V-CH7. -/
theorem test_noise_period :
    noisePeriod Chan.reset (-3) = 13 ∧ noisePeriod { Chan.reset with baseNote := 5 } (-70) = 15 := by decide

/-- V-CH4, V-CH5, V-CH6 (CLKDIV). -/
theorem test_default_periods :
    defaultPeriodFn 1 .pulse 828 0 = 253 ∧ defaultPeriodFn 1 .triangle (12 * 21) 0 = 2033 ∧
    defaultPeriodFn 1 .vrc6Saw (12 * 57) 0 = 580 ∧ defaultPeriodFn 1 .pulse 826 0 = 256 ∧
    defaultPeriodFn 12 .pulse 828 (-196608) = 301 ∧ defaultPeriodFn 1 .pulse 828 786432 = -1 := by decide

/-- R129 where the period has 128 bits: note 69, 120 octaves down; calculated with 400 decimal digits. -/
theorem test_default_period_large :
    defaultPeriodFn 1 .pulse 828 (-7864320) = 337928462743277601753997785467500145201 := by decide +kernel

/-! ### UpdateAPU, under the default configuration -/

/-- A block whose voice `v` is Initial on every envelope, with these first entries. -/
def sounding (v : Voice) (note : BitVec 7) (vol duty arp pitch : Value) (b : Block) : Block :=
  let set := fun (b : Block) k x => b.setEnv v k (((b.env v k).trigger).writeValue 0 x)
  set (set (set (set (b.setChan (voiceChannel v) { b.chan (voiceChannel v) with baseNote := note })
    .vol vol) .duty duty) .arp arp) .pitch pitch

/-- V-UPD1: the first active call on P2. -/
theorem test_cupd_pulse_first :
    nums (cupd defaultConfig .p2 (sounding .p2 69 12 2 0 0 Block.reset)).writes =
      [(0x4006, 0xFD), (0x4007, 0x00), (0x4004, 0xBC)] := by decide

/-- P3: coarse period 0 to 1, the trick up. -/
theorem test_cupd_pulse_trick_up :
    nums (cupd defaultConfig .p1 ((sounding .p1 69 12 2 0 (-2) Block.reset).setPrevHi 0 0)).writes =
      [(0x4017, 0x40), (0x4002, 0xFF), (0x4001, 0x87), (0x4017, 0xC0), (0x4001, 0x0F), (0x4002, 0x00), (0x4000, 0xBC)] := by
  decide

/-- P3: coarse period 1 to 0, the trick down. -/
theorem test_cupd_pulse_trick_down :
    nums (cupd defaultConfig .p1 ((sounding .p1 69 12 2 0 0 Block.reset).setPrevHi 0 1)).writes =
      [(0x4017, 0x40), (0x4002, 0x00), (0x4001, 0x8F), (0x4017, 0xC0), (0x4001, 0x0F), (0x4002, 0xFD), (0x4000, 0xBC)] := by
  decide

/-- S7: delta -7 takes the direct path, delta 0 writes no high byte. -/
theorem test_pulse_direct_paths :
    nums (pulsePeriodWrites 0 (some 7) 0x008) = [(0x4002, 0x08), (0x4003, 0x00)] ∧
    nums (pulsePeriodWrites 0 (some 1) 0x1FB) = [(0x4002, 0xFB)] := by decide

/-- P4: Triangle, and V-UPD4. -/
theorem test_cupd_triangle :
    nums (cupd defaultConfig .tri (sounding .tri 69 9 0 0 0 Block.reset)).writes =
      [(0x400A, 0x7E), (0x400B, 0x00), (0x4008, 0xFF)] ∧
    nums (cupd defaultConfig .tri (sounding .tri 69 0 0 0 0 Block.reset)).writes =
      [(0x400A, 0x7E), (0x400B, 0x00), (0x4008, 0x80)] := by decide

/-- P4 F2: Noise at note 64 with arpeggio -3, duty 1. -/
theorem test_cupd_noise :
    nums (cupd defaultConfig .noi (sounding .noi 64 8 1 (-3) 0 Block.reset)).writes =
      [(0x400E, 0x82), (0x400C, 0x38)] := by decide

/-- P4: VRC6 Pulse 2 at note 57, and V-UPD6's Off path with a duty envelope that is not Off. -/
theorem test_cupd_vrc6 :
    nums (cupd defaultConfig .v2 (sounding .v2 57 10 5 0 0 Block.reset)).writes =
      [(0xA001, 0xFB), (0xA002, 0x81), (0xA000, 0x5A)] ∧
    nums (cupd defaultConfig .v1 (Block.reset.setEnv .v1 .duty (Envelope.reset.trigger.writeValue 0 3))).writes =
      [(0x9000, 0x30)] := by decide

/-- P4: Saw at note 57; V-UPD7's oversize volume. -/
theorem test_cupd_saw :
    nums (cupd defaultConfig .saw (sounding .saw 57 10 0 0 0 Block.reset)).writes =
      [(0xB001, 0x44), (0xB002, 0x82), (0xB000, 0x28)] ∧ (sawVol 17).toNat = 0x04 := by decide

/-- The DPCM table of P5. -/
def p5Config : Config :=
  { defaultConfig with
    sampleLens := [100, 50]
    patches := fun pc =>
      if pc = 2 then some ⟨15, false, some 1⟩
      else if pc = 3 then some ⟨7, true, some 0⟩
      else if pc = 4 then some ⟨3, false, none⟩
      else if pc = 5 then some ⟨3, false, some 5⟩
      else none }

/-- A DPCM channel with a note and its pending flags. -/
def dpcmBlock (note : BitVec 7) (trig rel : Bool) : Block :=
  { Block.reset.setChan .dmc { Chan.reset with baseNote := note } with pendingTrigger := trig, pendingRelease := rel }

/-- P5: the trigger of note 62, and trigger with release of note 63. -/
theorem test_cupd_dpcm_trigger :
    nums (cupd p5Config .dmc (dpcmBlock 62 true false)).writes =
      [(0x4012, 0x02), (0x4013, 0x03), (0x4010, 0x0F), (0x4011, 0x20), (0x4015, 0x1F)] ∧
    nums (cupd p5Config .dmc (dpcmBlock 63 true true)).writes =
      [(0x4012, 0x00), (0x4013, 0x06), (0x4010, 0x47), (0x4011, 0x20), (0x4015, 0x1F), (0x4015, 0x0F)] := by decide

/-- P5: no patch, no sample, no such sample; the flag is cleared. -/
theorem test_cupd_dpcm_skips :
    (cupd p5Config .dmc (dpcmBlock 60 true false)).writes = [] ∧
    (cupd p5Config .dmc (dpcmBlock 64 true false)).writes = [] ∧
    (cupd p5Config .dmc (dpcmBlock 65 true false)).writes = [] ∧
    (cupd p5Config .dmc (dpcmBlock 65 true false)).block.pendingTrigger = false := by decide

/-- V-FRM1, whatever the configuration: FRAME as the first command after reset. -/
theorem test_frame_after_reset :
    (match step (State.reset.withFetchWord 64 0x3900000000000000) with
      | .next t => nums t.trace
      | _ => []) =
      [(0x4000, 0x30), (0x4004, 0x30), (0x4008, 0x80), (0x400C, 0x30), (0x9000, 0x00), (0xA000, 0x00), (0xB000, 0x00)] := by
  decide

/-- V-ENC2: an illegal word is answered with its cause. -/
theorem test_illegal_word_answered :
    (match step (State.reset.withFetchWord 64 0x1080000000000000) with
      | .next t => t.responses
      | _ => []) = [⟨.illegal, 3⟩] := by decide

/-! ### Witnesses: a state and operands that meet the hypotheses of each statement together -/

/-- The reset state with voice P1 Initial on its arpeggio envelope, and that voice's release below its length. -/
def live : State :=
  withEnv .p1 .arp fun e => { e with releasePoint := 2, length := 64, speedDivider := 8, step := 511, state := .initial }

theorem reset_env (v : Voice) (k : EnvKind) : State.reset.block.env v k = Envelope.reset := by
  cases v <;> cases k <;> rfl

theorem witness_reset_inv : State.reset.Inv := fun v k => by
  rw [show State.reset.block.env v k = _ from reset_env v k]; decide

/-- The boundary of INV3: step 511 with divider 8. -/
theorem witness_live_inv : live.Inv := by
  refine Block.Inv.setEnv witness_reset_inv ?_
  decide

theorem witness_live_active : (live.block.env .p1 .arp).state ≠ .off := by decide

theorem witness_DecodeOfEncode : (Instr.esval .saw .pitch 63 (-96)).WellFormed := by decide

theorem witness_EncodeOfDecode : decode 0x18FFE000FFFFFFA0 = .ok (.esval .saw .pitch 63 (-96)) := by decide

/-- One word for each of the three causes; the last has two, and the lower is reported. -/
theorem witness_IllegalWordsAnswered :
    illegalCause 0 = some 1 ∧ illegalCause 0x3300000000000002 = some 2 ∧ illegalCause 0x1080000000000000 = some 3 ∧
    illegalCause 0x1080000000000001 = some 2 ∧
    (State.reset.withFetchWord 64 0x1080000000000000).commands = 0x1080000000000000 :: [] := by decide

theorem witness_LegalWord : illegalCause 0x3000000000017F7F = none := by decide

theorem witness_StepRunsDecodedCommand :
    (State.reset.withFetchWord 64 0x3900000000000000).commands = [0x3900000000000000] ∧
    decode 0x3900000000000000 = .ok .frame := by decide

theorem witness_StepWaitsWithoutCommand : State.reset.commands = [] := rfl

theorem witness_IssuedCommandRuns : (Instr.cupd .dmc).WellFormed := by decide

theorem witness_DpcmEnvelopeCommandsIllegal : ¬ (Instr.etrig .dmc .vol).WellFormed := by decide

/-- AdvanceEnvelope, PlaybackReads, InitialPhaseSequence, ReadBacks: an envelope that meets the invariants. -/
theorem witness_envelope_inv : (live.block.env .p1 .arp).Inv := by decide

theorem witness_ReleasePhaseSequence :
    (live.block.env .p1 .arp).Inv ∧ (live.block.env .p1 .arp).releasePoint < (live.block.env .p1 .arp).length := by decide

theorem witness_OffIsAbsorbing :
    (State.reset.block.env .p1 .vol).state = .off ∧ (∃ t, exec (.eadv .p1 .vol) State.reset = .next t) :=
  ⟨by decide, _, rfl⟩

/-- The extreme valid targets (0, 1, 1) and (63, 64, 64), with the setters in another order. -/
theorem witness_SetterOrderIndependence :
    (0 < 1 ∧ 1 ≤ 1 ∧ 1 ≤ 64) ∧ (63 < 64 ∧ 64 ≤ 64 ∧ 64 ≤ 64) ∧
    List.Perm [Instr.esloop .p1 .vol 2, .eslen .p1 .vol 8, .esrel .p1 .vol 5]
      [.eslen .p1 .vol 8, .esrel .p1 .vol 5, .esloop .p1 .vol 2] := by decide

/-- VolumeScaling's clauses: value 9 with velocity 127 and the flag set. -/
theorem witness_VolumeScaling :
    let b := sounding .tri 69 9 0 0 0 Block.reset
    (b.env .tri .vol).Inv ∧ (b.chan .tri).velocitySensEnabled = true ∧ 0 < ((b.env .tri .vol).advanceValue defaultConfig).toInt ∧
    0 < (b.chan .tri).vel.toNat ∧ (b.chan .tri).vel = 127 := by decide

theorem witness_PulseSilence :
    (State.reset.block.env (pulseVoice 0) .arp).state = .off ∧ (State.reset.block.env (pulseVoice 1) .arp).state = .off := by
  decide

theorem witness_PulseActive : live.Inv ∧ (live.block.env (pulseVoice 0) .arp).state ≠ .off :=
  ⟨witness_live_inv, by decide⟩

/-- A live state of any voice that meets the invariants. -/
theorem witness_active (v : Voice) :
    ∃ s : State, s.Inv ∧ (s.block.env v .arp).state ≠ .off := by
  refine ⟨withEnv v .arp Envelope.trigger, Block.Inv.setEnv witness_reset_inv (Inv.trigger (witness_reset_inv _ _)), ?_⟩
  simp [withEnv]

/-- TriangleUpdate, NoiseUpdate, Vrc6PulseUpdate, SawUpdate: the Off clause at reset, the active clause of each. -/
theorem witness_variant_updates :
    (State.reset.Inv ∧ ∀ v, (State.reset.block.env v .arp).state = .off) ∧
    ∀ v, ∃ s : State, s.Inv ∧ (s.block.env v .arp).state ≠ .off :=
  ⟨⟨witness_reset_inv, fun v => by cases v <;> rfl⟩, witness_active⟩

/-- DpcmPacking: the table of S6. -/
theorem witness_DpcmPacking :
    p5Config.sampleLens ≠ [] ∧ sampleAddr p5Config 0 = some 0 ∧ sampleLen p5Config 0 = some 100 ∧
    sampleAddr p5Config 1 = some 128 ∧ sampleAddr p5Config 2 = none := by decide

/-- UpdateWriteCounts, SweepTrickFires, WritesStayInTheMap, WritersOfFields, CommandsReadTheirOwnChannel: every command
answers a next state, here CUPD on each channel. -/
theorem witness_cupd_answers (ch : Channel) (s : State) : ∃ t, exec (.cupd ch) s = .next t := ⟨_, rfl⟩

/-- UpdateWriteCounts' DPCM clauses, and the shadows of SweepTrickFires at the ends of their range. -/
theorem witness_update_clauses :
    (dpcmBlock 62 false true).pendingTrigger = false ∧ (dpcmBlock 62 true false).pendingRelease = false ∧
    (dpcmBlock 62 true true).pendingTrigger = true ∧ (Block.reset.setPrevHi 1 7).prevHiOf 1 = some 7 ∧
    Block.reset.prevHiOf 0 = none := by decide

/-- WritersOfFields: commands that do change a field of each kind. -/
theorem witness_WritersOfFields :
    ((after (.eldval .p1 .vol 63 5) State.reset).block.env .p1 .vol).values ≠ (State.reset.block.env .p1 .vol).values ∧
    ((after (.esrel .p1 .vol 64) State.reset).block.env .p1 .vol).length ≠ (State.reset.block.env .p1 .vol).length ∧
    ((after (.esdiv .p1 .vol 8) State.reset).block.env .p1 .vol).speedDivider ≠ 1 ∧
    ((after (.erel .p1 .vol) State.reset).block.env .p1 .vol).step ≠ 0 ∧
    ((after (.etrig .saw .pitch) State.reset).block.env .saw .pitch).state ≠ .off ∧
    ((after (.ctrig .p1 0 0 true) State.reset).block.chan .p1).baseNote ≠ 64 ∧
    ((after (.ctrig .p1 0 0 true) State.reset).block.chan .p1).vel ≠ 127 ∧
    ((after (.cbend .dmc 1) State.reset).block.chan .dmc).bend ≠ 0 ∧
    ((after (.ckeyt .dmc false) State.reset).block.chan .dmc).keyTrackEnabled ≠ true ∧
    ((after (.cvsens .dmc false) State.reset).block.chan .dmc).velocitySensEnabled ≠ true ∧
    (after (.ctrig .dmc 0 0 false) State.reset).block.pendingTrigger ≠ false ∧
    (after (.crel .dmc) State.reset).block.pendingRelease ≠ false := by decide

/-- WritersOfFields' clause on the shadow: an active CUPD sets it. -/
theorem witness_WritersOfFields_prevHi :
    (after (.cupd .p1) live).block.prevHiOf 0 ≠ live.block.prevHiOf 0 := by
  have h : after (.cupd .p1) live = live.complete (cupd Config.current .p1 live.block).block
      (cupd Config.current .p1 live.block).writes 0 := rfl
  rw [h, complete_block, show cupd Config.current .p1 live.block = cupdPulse Config.current 0 .p1 live.block from rfl,
    cupdPulse_active _ _ witness_live_active]
  simp only [prevHiOf_setPrevHi]
  intro hc
  exact absurd hc (by simp [show live.block.prevHiOf 0 = none by decide])

theorem witness_StepKeepsInvariants : live.Inv ∧ ∃ t, step live = .next t := ⟨witness_live_inv, _, rfl⟩

theorem witness_EveryWordIsAnswered : ∃ w ws, (State.reset.withFetchWord 64 0).commands = w :: ws := ⟨_, _, rfl⟩

theorem witness_ChannelsAreSeparate :
    channelOf (.etrig .saw .pitch) = some .saw ∧ Channel.dmc ≠ .saw ∧ ∃ t, exec (.etrig .saw .pitch) live = .next t :=
  ⟨by decide, by decide, _, rfl⟩

/-- CommandsReadTheirOwnChannel: the reset state and `live` agree on channel SAW and differ on P1. -/
theorem witness_CommandsReadTheirOwnChannel :
    channelOf (.eadv .saw .vol) = some .saw ∧ (Instr.eadv .saw .vol).envelope? = some (voiceChannel .saw, .vol) ∧
    SameChannel .saw State.reset.block live.block ∧ live.block.env .p1 .arp ≠ State.reset.block.env .p1 .arp := by
  refine ⟨by decide, by decide, ⟨rfl, ?_, fun _ _ => rfl, fun h => absurd h (by decide)⟩, by decide⟩
  intro v hv k
  have : v = .saw := voiceChannel_injective hv
  subst this
  exact env_setEnv_other (by simp)

/-- OffStepUnobservable: the reset state and the reset state with another step in one Off envelope. -/
theorem witness_OffStepUnobservable :
    SameButOffSteps State.reset.block (withEnv .p1 .vol fun e => { e with step := 7 }).block ∧
    (withEnv .p1 .vol fun e => { e with step := 7 }).block ≠ State.reset.block := by
  refine ⟨⟨⟨fun _ => rfl, fun _ => rfl, rfl, rfl⟩, ?_⟩, ?_⟩
  · intro v k
    by_cases h : v = .p1 ∧ k = .vol
    · obtain ⟨rfl, rfl⟩ := h
      exact .inr ⟨by decide, by decide⟩
    · exact .inl (by simp [withEnv, env_setEnv, h])
  · intro h
    exact absurd (congrArg (fun b => (b.env .p1 .vol).step) h) (by decide)

end Sys2Proof.Tests
end

section
/-! PROOFS. The state after reset, read through the block's accessors (spec R36). -/

namespace Sys2Proof.Machine

@[simp] theorem Block.reset_env (v : Voice) (k : EnvKind) : Block.reset.env v k = Envelope.reset :=
  Vector.getElem_replicate (slot v k).isLt

@[simp] theorem Block.reset_chan (ch : Channel) : Block.reset.chan ch = Chan.reset :=
  Vector.getElem_replicate (chanIndex ch).isLt

@[simp] theorem Block.reset_prevHiOf (p : Fin 2) : Block.reset.prevHiOf p = none :=
  Vector.getElem_replicate p.isLt

@[simp] theorem State.reset_block : State.reset.block = Block.reset := rfl

@[simp] theorem Envelope.reset_values_getElem (i : Fin 64) : Envelope.reset.values[i.val] = 0 :=
  Vector.getElem_replicate i.isLt

/-- Settles O42: each accessor of the reset block reads one entry of a replicated vector, and the entry's fields are those
of `Envelope.reset` and `Chan.reset`. -/
theorem resetValues : Obligations.ResetValues := by
  unfold Obligations.ResetValues
  rw [State.reset_block]
  refine ⟨fun v k => ?envelopes, fun ch => ?channels, Block.reset_prevHiOf, rfl, rfl⟩
  case envelopes =>
    rw [Block.reset_env]
    exact ⟨rfl, rfl, rfl, rfl, rfl, rfl, Envelope.reset_values_getElem⟩
  case channels => exact Block.reset_chan ch

end Sys2Proof.Machine
end

section
/-! PROOFS. The opcode table of the statements against the decoder: the row of an opcode is built from its code and its
format, a word matches that row exactly when it passes the decoder's check, and so the table's cause is the decoder's
(spec R61, R64, R65, R171). -/

namespace Sys2Proof

open Sys2Proof.Machine Sys2Proof.Stmt

/-! ### The rows -/

/-- The mask of a format: OPC, RSV, the fields it does not use and the zero bits of its immediate (spec R61). -/
def Format.mask (f : Format) : CommandWord :=
  packWord (BitVec.allOnes 8) (if f.usesCh then 0 else BitVec.allOnes 3) (if f.usesEnv then 0 else BitVec.allOnes 2)
    (if f.usesIdx then 0 else BitVec.allOnes 6) (BitVec.allOnes 13) f.immZero

/-- The table's row for an opcode; its format addresses an envelope exactly when it uses ENV. -/
def Opcode.row (o : Opcode) : Row := ⟨packWord o.code 0 0 0 0 0, o.format.mask, o.format.usesEnv⟩

/-- The opcodes, in the order of the table (spec R64). -/
def opcodes : List Opcode :=
  [.etrig, .erel, .eadv, .eslen, .esloop, .esrel, .esdiv, .esval, .eldval, .estep, .egraw, .egstate,
   .eglen, .egloop, .egrel, .egdiv, .egval, .ctrig, .crel, .cbend, .ckeyt, .cvsens, .cupd, .frame]

theorem mem_opcodes (o : Opcode) : o ∈ opcodes := by cases o <;> decide

theorem rows_eq_map_row : rows = opcodes.map Opcode.row := by rfl

theorem rows_all_iff (p : Row → Bool) : rows.all p = true ↔ ∀ o : Opcode, p o.row = true := by
  simp [rows_eq_map_row, mem_opcodes]

theorem rows_any_iff (p : Row → Bool) : rows.any p = true ↔ ∃ o : Opcode, p o.row = true := by
  simp [rows_eq_map_row, mem_opcodes]

/-! ### A word against a row -/

/-- A field masked as a format requires is zero exactly when the format uses it or it is zero. -/
theorem and_unused_eq_zero {n : Nat} (used : Bool) (x : BitVec n) :
    x &&& (if used then 0 else BitVec.allOnes n) = 0 ↔ (used || x == 0) = true := by
  cases used <;> simp

/-- A word masked by six field masks has an opcode and nothing else exactly when its fields, masked, have. -/
theorem and_packWord_eq_iff (w : CommandWord) (opc code : BitVec 8) (ch : BitVec 3) (env : BitVec 2) (idx : BitVec 6)
    (rsv : BitVec 13) (imm : BitVec 32) :
    w &&& packWord opc ch env idx rsv imm = packWord code 0 0 0 0 0 ↔
      opcOf w &&& opc = code ∧ chOf w &&& ch = 0 ∧ envOf w &&& env = 0 ∧ idxOf w &&& idx = 0 ∧
        rsvOf w &&& rsv = 0 ∧ immOf w &&& imm = 0 := by
  simp only [masked_eq_iff_fields, opcOf_packWord, chOf_packWord, envOf_packWord, idxOf_packWord, rsvOf_packWord,
    immOf_packWord]

theorem sameOpcode_row (w : CommandWord) (o : Opcode) : sameOpcode w o.row = true ↔ opcOf w = o.code := by
  have hmask : (0xFF00000000000000 : CommandWord) = packWord (BitVec.allOnes 8) 0 0 0 0 0 := by decide
  rw [sameOpcode, Opcode.row, hmask, beq_iff_eq, and_packWord_eq_iff, BitVec.and_allOnes]
  simp

/-- Check (2) of the decoder is the row's mask (spec R61, R65). -/
theorem matchesRow_row (w : CommandWord) (o : Opcode) :
    matchesRow w o.row = true ↔ opcOf w = o.code ∧ o.format.fieldsOk w = true := by
  rw [matchesRow, Opcode.row, Format.mask, beq_iff_eq, and_packWord_eq_iff]
  simp only [and_unused_eq_zero, BitVec.and_allOnes, Format.fieldsOk, Bool.and_eq_true, beq_iff_eq]
  tauto

theorem channelBits_eq_four (w : CommandWord) : ((w >>> 53) &&& 7 == 4) = true ↔ chOf w = 4 := by
  have hbits : ((w >>> 53) &&& 7).toNat = (chOf w).toNat := by
    have h7 := Nat.and_two_pow_sub_one_eq_mod (w.toNat >>> 53) 3
    simpa [chOf] using h7
  rw [beq_iff_eq, ← BitVec.toNat_inj, hbits, ← BitVec.toNat_inj]
  rfl

/-! ### Check (3) of the decoder -/

theorem channel_ofCode_eq_dmc (c : BitVec 3) : Channel.ofCode c = .dmc ↔ c = 4 := by revert c; decide

theorem envelope?_operands (o : Opcode) (w : CommandWord) :
    (o.operands w).envelope? =
      if o.format.usesEnv then some (Channel.ofCode (chOf w), EnvKind.ofCode (envOf w)) else none := by
  cases o <;> rfl

theorem operands_not_wf (o : Opcode) (w : CommandWord) :
    (o.operands w).wf = false ↔ o.format.usesEnv = true ∧ chOf w = 4 := by
  unfold Instr.wf
  rw [envelope?_operands]
  cases o.format.usesEnv <;> simp [channel_ofCode_eq_dmc]

/-! ### The table's cause is the decoder's -/

/-- The opcode map, read and written, agree (spec R64). -/
theorem opcode_ofCode_eq_some_iff {c : BitVec 8} {o : Opcode} : Opcode.ofCode c = some o ↔ c = o.code :=
  ⟨fun h => (opcode_code_of_ofCode h).symm, fun h => h ▸ opcode_ofCode_code o⟩

theorem decode_unassigned {w : CommandWord} (ho : Opcode.ofCode (opcOf w) = none) :
    decode w = .error .reservedOpcode := by
  rw [decode, ho]

theorem illegalCause_unassigned {w : CommandWord} (ho : Opcode.ofCode (opcOf w) = none) : illegalCause w = some 1 := by
  have hnone : rows.all (fun r => !sameOpcode w r) = true := by
    rw [rows_all_iff]
    intro o
    have hne : opcOf w ≠ o.code := fun h => by simp [h] at ho
    simpa [← sameOpcode_row] using hne
  rw [illegalCause, if_pos hnone]

section Assigned
variable {w : CommandWord} {o : Opcode} (ho : Opcode.ofCode (opcOf w) = some o)
include ho

theorem decode_assigned :
    decode w = if o.format.fieldsOk w then if (o.operands w).wf then .ok (o.operands w) else .error .noSuchEnvelope
      else .error .reservedField := by
  rw [decode, ho]

theorem opcOf_eq_code_iff (o' : Opcode) : opcOf w = o'.code ↔ o = o' := by
  rw [← opcode_ofCode_eq_some_iff, ho, Option.some_inj]

theorem rows_all_not_sameOpcode : (rows.all fun r => !sameOpcode w r) = false := by
  rw [← Bool.not_eq_true, rows_all_iff]
  simp [← Bool.not_eq_true, sameOpcode_row, opcOf_eq_code_iff ho]

theorem rows_all_not_matchesRow : (rows.all fun r => !matchesRow w r) = !o.format.fieldsOk w := by
  rw [Bool.eq_iff_iff, rows_all_iff]
  simp [← Bool.not_eq_true, matchesRow_row, opcOf_eq_code_iff ho]

theorem rows_any_matchesRow_env :
    (rows.any fun r => matchesRow w r && r.env) = (o.format.fieldsOk w && o.format.usesEnv) := by
  rw [Bool.eq_iff_iff, rows_any_iff]
  simp only [Bool.and_eq_true, matchesRow_row, opcOf_eq_code_iff ho, and_assoc, exists_eq_left']
  rfl

/-- A word whose opcode is assigned is judged by the one row of its opcode. -/
theorem illegalCause_assigned :
    illegalCause w = if o.format.fieldsOk w then if (o.operands w).wf then none else some 3 else some 2 := by
  have hwf : (o.format.usesEnv && (w >>> 53) &&& 7 == 4) = !(o.operands w).wf := by
    rw [Bool.eq_iff_iff, Bool.and_eq_true, channelBits_eq_four, Bool.not_eq_true', operands_not_wf]
  rw [illegalCause, rows_all_not_sameOpcode ho, rows_all_not_matchesRow ho, rows_any_matchesRow_env ho,
    Bool.and_assoc, hwf]
  cases o.format.fieldsOk w <;> cases (o.operands w).wf <;> rfl

end Assigned

/-- The decoder's answer as the table gives it: no cause for a command, else the number of the cause (spec R171). -/
def causeOf : Except Illegal Instr → Option Nat
  | .ok _ => none
  | .error c => some c.code.toNat

/-- The opcode table and the decoder name the same cause for every word (spec R65, R171). -/
theorem illegalCause_eq_causeOf_decode (w : CommandWord) : illegalCause w = causeOf (decode w) := by
  cases ho : Opcode.ofCode (opcOf w) with
  | none => rw [illegalCause_unassigned ho, decode_unassigned ho]; rfl
  | some o =>
    rw [illegalCause_assigned ho, decode_assigned ho]
    split_ifs <;> rfl

theorem decode_eq_error_of_illegalCause {w : CommandWord} {n : Nat} (h : illegalCause w = some n) :
    ∃ c : Illegal, decode w = .error c ∧ n = c.code.toNat := by
  rw [illegalCause_eq_causeOf_decode] at h
  cases hd : decode w with
  | ok i => simp [hd, causeOf] at h
  | error c => exact ⟨c, rfl, by simpa [hd, causeOf, eq_comm] using h⟩

theorem illegal_code_cases (c : Illegal) : c.code.toNat = 1 ∨ c.code.toNat = 2 ∨ c.code.toNat = 3 := by
  cases c <;> decide

/-! ### The step -/

theorem step_of_decode_error {s : State} {w : CommandWord} {ws : List CommandWord} {c : Illegal}
    (hs : s.commands = w :: ws) (hd : decode w = .error c) :
    step s = .next (State.raiseIllegal { s with commands := ws } c) := by
  simp only [step, fetch?, hs, runWord, hd]

/-- Settles O5: the table's cause is the decoder's, and a step on a word the decoder refuses raises Illegal with that
cause. -/
theorem illegalWordsAnswered : Obligations.IllegalWordsAnswered := by
  unfold Obligations.IllegalWordsAnswered
  intro s w ws n hs hcause
  obtain ⟨c, hd, rfl⟩ := decode_eq_error_of_illegalCause hcause
  exact ⟨illegal_code_cases c, _, step_of_decode_error hs hd, rfl, rfl, rfl, by simp⟩

end Sys2Proof
end

section
/-! PROOFS. Envelope playback (spec R81 to R87): what `exec_env` says of an envelope command, in the statements' words;
the model's `EADV` is the statements' five steps; the responses as signed numbers. -/

namespace Sys2Proof.Machine

open Sys2Proof.Stmt

/-! ### One envelope command -/

section EnvelopeCommand
variable {i : Instr} {v : Voice} {k : EnvKind} {s : State} (h : i.envelope? = some (voiceChannel v, k))
include h

/-- An envelope command that answers 0 sets its envelope to `e'` when its effect is `e'`. -/
theorem setsEnv_of_envEffect {e' : Envelope} (he : (envEffect i).1 (s.block.env v k) = e')
    (hr : (envEffect i).2 (s.block.env v k) = 0) : SetsEnv i v k s e' := by
  refine ⟨_, exec_env s h, ?_, sameButEnv_setEnv .., ?_⟩
  · simpa using he
  · rw [hr]; exact puts_complete ..

/-- An envelope command without effect reads as the signed value of what it answers. -/
theorem readsAs_of_envEffect {x : Int} (he : (envEffect i).1 (s.block.env v k) = s.block.env v k)
    (hr : ((envEffect i).2 (s.block.env v k)).toInt = x) : ReadsAs i s x := by
  refine ⟨_, _, exec_env s h, ?_, puts_complete .., hr⟩
  rw [complete_block, he, setEnv_env]

end EnvelopeCommand

/-- Settles O10: the envelope effects of ETRIG and EREL are the model's `trigger` and `release`, which are the stated
updates by definition. -/
theorem triggerAndReleaseEnvelope : Obligations.TriggerAndReleaseEnvelope := by
  unfold Obligations.TriggerAndReleaseEnvelope
  intro v k s
  exact ⟨setsEnv_of_envEffect rfl rfl rfl, setsEnv_of_envEffect rfl rfl rfl⟩

/-! ### EADV -/

theorem advancedState_eq (e : Envelope) :
    advancedState e =
      if (e.state = .initial ∨ e.state = .release) ∧ advancedStep e ≥ e.length * e.speedDivider then .off
      else e.state := by
  have hon : e.state ≠ .off ↔ e.state = .initial ∨ e.state = .release := by cases e.state <;> decide
  simp only [advancedState, hon]

/-- The model's `GetValueAndAdvance()` leaves the envelope of the five steps (spec R83). -/
theorem advance_eq_advanced (e : Envelope) : e.advance = advanced e := by
  rw [Envelope.advance, advancedState_eq]; rfl

theorem advanced_state (e : Envelope) : (advanced e).state = advancedState e := by
  rw [← advance_eq_advanced, advance_state]

theorem readValue_of_lt (cfg : Config) (e : Envelope) {i : Nat} (hi : i < 64) : e.readValue cfg i = e.values[i] := by
  rw [Envelope.readValue, dif_pos hi]

/-- The value of `EADV`: under the invariants an envelope that is not Off afterwards was not Off before, so the index
its step denoted is in the table (spec R32, R83). -/
theorem Inv.returns_advanceValue {e : Envelope} (he : e.Inv) (cfg : Config) : Returns e (e.advanceValue cfg) := by
  rw [Returns, advanced_state, Envelope.advanceValue]
  split_ifs with hoff
  · rfl
  · have hi : e.step / e.speedDivider < 64 := Inv.index_lt he fun h => hoff (advancedState_of_off h)
    exact ⟨⟨_, hi⟩, rfl, readValue_of_lt cfg e hi⟩

/-- Settles O11: the envelope after is that of the five steps, and the value is read at an index the invariants keep in
the table. -/
theorem advanceEnvelope : Obligations.AdvanceEnvelope := by
  unfold Obligations.AdvanceEnvelope
  intro v k s he
  refine ⟨_, _, exec_env s rfl, ?_, sameButEnv_setEnv .., puts_complete .., Inv.returns_advanceValue he _⟩
  rw [complete_block, env_setEnv_same]
  exact advance_eq_advanced _

/-! ### The reads -/

/-- `ESTEP`: the index of an envelope that plays is in the table, so it fits in the response (spec R32, R85). -/
theorem Inv.stepValue_toInt {e : Envelope} (he : e.Inv) :
    (stepValue e).toInt = if e.state = .off then -1 else ((e.step / e.speedDivider : Nat) : Int) := by
  rw [stepValue]
  split_ifs with hoff
  · decide
  · have hi := Inv.index_lt he hoff
    exact counterValue_toInt (by omega)

/-- `EGRAW`: the saturated step fits in the response (spec R86). -/
theorem rawStepValue_toInt (e : Envelope) : (rawStepValue e).toInt = min (e.step : Int) (2 ^ 31 - 1) := by
  rw [rawStepValue, counterValue_toInt (by omega)]
  omega

theorem stateCode_toInt (st : EnvState) :
    (stateCode st).toInt = match st with | .initial => 0 | .release => 1 | .off => 2 := by
  cases st <;> rfl

/-- Settles O12: the three commands have no effect on the envelope, and each answers the signed value the rule gives. -/
theorem playbackReads : Obligations.PlaybackReads := by
  unfold Obligations.PlaybackReads
  intro v k s he
  refine ⟨?estep, ?egraw, ?egstate⟩
  case estep => exact readsAs_of_envEffect rfl rfl (Inv.stepValue_toInt he)
  case egraw => exact readsAs_of_envEffect rfl rfl (rawStepValue_toInt _)
  case egstate => exact readsAs_of_envEffect rfl rfl (stateCode_toInt _)

end Sys2Proof.Machine
end

section
/-! PROOFS. Envelope configuration (spec R97 to R107): the model's clamps are the statements' `max` and `min`, so each
setter makes the stated assignments; the read-backs answer counters that fit. -/

namespace Sys2Proof.Machine

open Sys2Proof.Stmt

/-! ### Clamps -/

theorem clamp_eq_max_min {x lo hi : Int} (h : lo ≤ hi) : clamp x lo hi = max lo (min x hi) := by
  unfold clamp; split_ifs <;> omega

theorem clampNat_eq_clampOperand (n : Value) {lo hi : Nat} (h : lo ≤ hi) : clampNat n lo hi = clampOperand n lo hi := by
  rw [clampNat, operand, clamp_eq_max_min (by omega), clampOperand]

/-- An operand clamped to the kind's bounds still fits in 32 bits, because the bounds lie on both sides of 0 (spec R15),
so `ESVAL` stores the clamped number itself. -/
theorem editValue_toInt (cfg : Config) (k : EnvKind) (n : Value) :
    (editValue cfg k n).toInt = max (minVal cfg k) (min n.toInt (maxVal cfg k)) := by
  have hmin : minVal cfg k ≤ 0 := by rw [minVal]; omega
  have hmax : 0 ≤ maxVal cfg k := by rw [maxVal]; omega
  have hlo : -2 ^ 31 ≤ n.toInt := BitVec.le_toInt n
  have hhi : n.toInt < 2 ^ 31 := BitVec.toInt_lt
  rw [editValue, operand, clamp_eq_max_min (hmin.trans hmax)]
  exact BitVec.toInt_ofInt_eq_self (by decide) (by omega) (by omega)

/-- Clamping a counter to `[0, m - 1]` over the integers is truncated subtraction over the naturals. -/
theorem toNat_clamp_pred (q m : Nat) : (max (0 : Int) (min (q : Int) ((m : Int) - 1))).toNat = min q (m - 1) := by
  omega

/-! ### The setters -/

/-- Settles O16: the assignments of `SetLength` are the stated ones, with the operand's clamp in the statement's form. -/
theorem setLengthResult : Obligations.SetLengthResult := by
  unfold Obligations.SetLengthResult
  intro v k n s
  rw [← clampNat_eq_clampOperand n (by decide)]
  exact setsEnv_of_envEffect rfl rfl rfl

/-- Settles O17: the assignments of `SetLoop` are the stated ones, with the operand's clamp in the statement's form. -/
theorem setLoopResult : Obligations.SetLoopResult := by
  unfold Obligations.SetLoopResult
  intro v k n s
  rw [← clampNat_eq_clampOperand n (by decide)]
  exact setsEnv_of_envEffect rfl rfl rfl

/-- Settles O18: the assignments of `SetRelease` are the stated ones, with the operand's clamp in the statement's form. -/
theorem setReleaseResult : Obligations.SetReleaseResult := by
  unfold Obligations.SetReleaseResult
  intro v k n s
  rw [← clampNat_eq_clampOperand n (by decide)]
  exact setsEnv_of_envEffect rfl rfl rfl

/-- Settles O19: the step's clamp over the integers is the model's over the naturals. -/
theorem setDividerResult : Obligations.SetDividerResult := by
  unfold Obligations.SetDividerResult
  intro v k n s
  rw [← clampNat_eq_clampOperand n (by decide)]
  dsimp only
  rw [← Nat.cast_mul, toNat_clamp_pred]
  exact setsEnv_of_envEffect rfl rfl rfl

/-- Settles O20: ESVAL's witness is the value the model stores, ELDVAL stores the operand by definition. -/
theorem tableWrites : Obligations.TableWrites := by
  unfold Obligations.TableWrites
  intro v k i n s
  refine ⟨⟨editValue Config.current k n, editValue_toInt .., ?esval⟩, ?eldval⟩
  case esval => exact setsEnv_of_envEffect rfl rfl rfl
  case eldval => exact setsEnv_of_envEffect rfl rfl rfl

/-! ### The read-backs -/

/-- Settles O21: the five commands have no effect on the envelope; INV1 and INV2 bound the counters, so each fits in the
response (spec R30, R31). -/
theorem readBacks : Obligations.ReadBacks := by
  unfold Obligations.ReadBacks
  rintro v k i s ⟨⟨hloop, hrel, hlen⟩, ⟨-, hdiv⟩, -⟩
  refine ⟨?egval, ?eglen, ?egloop, ?egrel, ?egdiv⟩
  case egval => exact readsAs_of_envEffect rfl rfl rfl
  case eglen => exact readsAs_of_envEffect rfl rfl (counterValue_toInt (by omega))
  case egloop => exact readsAs_of_envEffect rfl rfl (counterValue_toInt (by omega))
  case egrel => exact readsAs_of_envEffect rfl rfl (counterValue_toInt (by omega))
  case egdiv => exact readsAs_of_envEffect rfl rfl (counterValue_toInt (by omega))

end Sys2Proof.Machine
end

section
/-! PROOFS. Channel control (spec 42_channel_control.md): what CTRIG, CREL and the flag writes make of each channel and
envelope, and `GetVolume()` as the rational formula with its corner cases. -/

namespace Sys2Proof.Machine

open Sys2Proof.Stmt

/-! ### GetVolume -/

/-- The model's integer `ceil` is the one over the rationals (spec R10). -/
theorem ceilDiv_eq_ceil (a : Int) (n : Nat) : ceilDiv a n = ⌈(a : ℚ) / n⌉ :=
  (Rat.ceil_intCast_div_natCast a n).symm

theorem scaledVolume_eq_volumeOf (c : Chan) (x : Value) : scaledVolume c x = volumeOf c x := by
  have hceil := ceilDiv_eq_ceil (x.toInt * c.vel.toNat) 127
  push_cast at hceil
  rw [scaledVolume, volumeOf, hceil]

section Scaled
variable {c : Chan} (x : Value)

theorem scaledVolume_of_sens (hs : c.velocitySensEnabled = true) :
    scaledVolume c x = (x.toInt * c.vel.toNat + 126) / 127 := by
  rw [scaledVolume, if_pos hs, ceilDiv]; omega

/-- A quiet note never rounds to silence (spec R126). -/
theorem scaledVolume_pos (hs : c.velocitySensEnabled = true) (hx : 0 < x.toInt) (hv : 0 < c.vel.toNat) :
    1 ≤ scaledVolume c x := by
  have hprod : 0 < x.toInt * c.vel.toNat := Int.mul_pos hx (by omega)
  rw [scaledVolume_of_sens x hs]; omega

theorem scaledVolume_full (hv : c.vel = 127) : scaledVolume c x = x.toInt := by
  cases hs : c.velocitySensEnabled with
  | false => rw [scaledVolume, hs]; rfl
  | true =>
    have hnat : (127 : BitVec 7).toNat = 127 := rfl
    rw [scaledVolume_of_sens x hs, hv, hnat]; omega

end Scaled

theorem getVolume_block (cfg : Config) (v : Voice) (b : Block) :
    (getVolume cfg v b).block = b.setEnv v .vol (advanced (b.env v .vol)) := by
  rw [← advance_eq_advanced]; rfl

/-- Settles O29: the value scaled is what the volume envelope returns, and the integer ceiling of the model is the
rational one; each corner case is a fact about that ceiling. -/
theorem volumeScaling : Obligations.VolumeScaling := by
  unfold Obligations.VolumeScaling
  intro cfg v b he
  refine ⟨getVolume_block cfg v b, (b.env v .vol).advanceValue cfg, Inv.returns_advanceValue he cfg,
    scaledVolume_eq_volumeOf .., ?roundsUp, ?audible, ?full⟩
  case roundsUp => exact fun hs _ => scaledVolume_of_sens _ hs
  case audible => exact scaledVolume_pos _
  case full => exact scaledVolume_full _

/-! ### One channel's attributes -/

theorem chan_setChan_other {b : Block} {ch ch' : Channel} {a : Chan} (h : ch' ≠ ch) :
    (b.setChan ch a).chan ch' = b.chan ch' := by
  rw [chan_setChan, if_neg h]

/-- `i` completes with status OK and 0, changes the attributes of channel `ch` to `a` and nothing else, and emits no
write: `SetsEnv` for a channel. -/
def SetsChan (i : Instr) (ch : Channel) (s : State) (a : Chan) : Prop :=
  ∃ t, exec i s = .next t ∧ t.block.chan ch = a ∧ (∀ ch', ch' ≠ ch → t.block.chan ch' = s.block.chan ch') ∧
    SameEnvs s.block t.block ∧ (∀ p, t.block.prevHiOf p = s.block.prevHiOf p) ∧
    t.block.pendingTrigger = s.block.pendingTrigger ∧ t.block.pendingRelease = s.block.pendingRelease ∧ Puts s t [] 0

theorem setsChan_of_exec {i : Instr} {ch : Channel} {s : State} {a : Chan}
    (h : exec i s = .next (s.complete (s.block.setChan ch a) [] 0)) : SetsChan i ch s a :=
  ⟨_, h, chan_setChan_same .., fun _ => chan_setChan_other, fun _ _ => rfl, fun _ => rfl, rfl, rfl, puts_complete ..⟩

/-- Settles O27: each of the two commands writes back its channel's attributes with the one flag changed. -/
theorem channelFlagWrites : Obligations.ChannelFlagWrites := by
  unfold Obligations.ChannelFlagWrites
  intro ch x s
  exact ⟨setsChan_of_exec (exec_ckeyt ch x s), setsChan_of_exec (exec_cvsens ch x s)⟩

/-! ### CTRIG -/

section Trigger
variable {v : Voice} {note vel : BitVec 7} {rt : Bool} {b : Block}

theorem trigVoice_chan_same :
    (trigVoice v note vel rt b).chan (voiceChannel v) =
      { b.chan (voiceChannel v) with
        baseNote := trackedNote (b.chan (voiceChannel v)) note
        vel := if rt then vel else (b.chan (voiceChannel v)).vel } := by
  cases rt with
  | false => exact chan_setChan_same ..
  | true => exact ((mapVoice_sameChannels ..).1 _).trans (chan_setChan_same ..)

theorem trigVoice_chan_other {ch : Channel} (h : ch ≠ voiceChannel v) :
    (trigVoice v note vel rt b).chan ch = b.chan ch := by
  cases rt with
  | false => exact chan_setChan_other h
  | true => exact ((mapVoice_sameChannels ..).1 _).trans (chan_setChan_other h)

theorem trigVoice_env (v' : Voice) (k : EnvKind) :
    (trigVoice v note vel rt b).env v' k = if rt ∧ v' = v then (b.env v' k).trigger else b.env v' k := by
  cases rt with
  | false => simp [trigVoice]
  | true => simp [trigVoice, mapVoice_env]

@[simp] theorem trigVoice_prevHiOf (p : Fin 2) : (trigVoice v note vel rt b).prevHiOf p = b.prevHiOf p := by
  cases rt <;> rfl

@[simp] theorem trigVoice_pendingTrigger : (trigVoice v note vel rt b).pendingTrigger = b.pendingTrigger := by
  cases rt <;> rfl

@[simp] theorem trigVoice_pendingRelease : (trigVoice v note vel rt b).pendingRelease = b.pendingRelease := by
  cases rt <;> rfl

end Trigger

/-- Settles O24: the block after is `trigVoice`'s, read field by field. -/
theorem triggerVoice : Obligations.TriggerVoice := by
  unfold Obligations.TriggerVoice
  intro v note vel rt s
  refine ⟨_, exec_ctrig_voice .., trigVoice_chan_same, fun k => ?own, fun v' hv' k => ?others,
    fun _ => trigVoice_chan_other, trigVoice_prevHiOf, trigVoice_pendingTrigger, trigVoice_pendingRelease,
    puts_complete ..⟩
  case own => simp [trigVoice_env, Envelope.trigger]
  case others => simp [trigVoice_env, hv']

/-- Settles O25: the block after is `trigDpcm`'s, which writes the note and the pending trigger. -/
theorem triggerDpcm : Obligations.TriggerDpcm := by
  unfold Obligations.TriggerDpcm
  intro note vel rt s
  exact ⟨_, exec_ctrig_dmc .., chan_setChan_same .., rfl, rfl, fun _ _ => rfl, fun _ => chan_setChan_other,
    fun _ => rfl, puts_complete ..⟩

/-! ### CREL -/

/-- Settles O26: on a voice the fan-out applies the model's `release`, which is the stated update by definition, to the
four envelopes alone; on the DPCM channel the block after is the stated one. -/
theorem releaseChannel : Obligations.ReleaseChannel := by
  unfold Obligations.ReleaseChannel
  refine ⟨fun v s => ?voice, fun s => ⟨_, exec_crel_dmc s, rfl, puts_complete ..⟩⟩
  refine ⟨_, exec_crel_voice v s, fun k => ?own, fun v' hv' k => ?others, mapVoice_sameChannels .., puts_complete ..⟩
  case own => rw [complete_block, mapVoice_env, if_pos rfl]; rfl
  case others => rw [complete_block, mapVoice_env, if_neg hv']

end Sys2Proof.Machine
end

section
/-! PROOFS. CUPD on Noise (spec R125, R149): the block after an active path in the statements' words, and the two
register writes from numbers. -/

namespace Sys2Proof.Machine

open Sys2Proof.Stmt

theorem activeBlock_advancesVoice (cfg : Config) (v : Voice) (b : Block) : AdvancesVoice v b (activeBlock cfg v b) := by
  refine ⟨fun k => ?own, fun v' hv' k => ?others⟩
  case own => rw [activeBlock_env, if_pos rfl, advance_eq_advanced]
  case others => rw [activeBlock_env, if_neg hv']

theorem fifteen_sub_eq_xor (n : BitVec 4) : 15 - n.toNat = n.toNat ^^^ 0x0F := by
  revert n; decide

theorem noisePeriod_toNat (c : Chan) (a : Value) :
    (noisePeriod c a).toNat = (((c.baseNote.toNat : Int) + a.toInt) % 16).toNat :=
  BitVec.toNat_ofInt ..

theorem apuWrite_nPer (D : Int) (n : BitVec 4) :
    apuWrite .nPer (noisePer (BitVec.ofInt 1 D) n) = wr 0x400E ((D % 2).toNat * 128 + (n.toNat ^^^ 0x0F)) := by
  have hD : (BitVec.ofInt 1 D).toNat = (D % 2).toNat := BitVec.toNat_ofInt ..
  rw [noisePer_eq, hD, fifteen_sub_eq_xor, Nat.mul_comm]; rfl

theorem apuWrite_nVol (V : Int) : apuWrite .nVol (noiseVol V) = wr 0x400C (0x30 + (V % 16).toNat) := by
  rw [noiseVol_eq]; rfl

/-- CUPD completes with the block and the writes of its variant. -/
theorem exec_cupd_of_eq {ch : Channel} {s : State} {r : Emit} (h : cupd Config.current ch s.block = r) :
    exec (.cupd ch) s = .next (s.complete r.block r.writes 0) := by
  rw [exec_cupd, h]

theorem Block.Inv.returns_readOf {b : Block} (h : b.Inv) (cfg : Config) (v : Voice) (k : EnvKind) :
    Returns (b.env v k) (readOf cfg b v k) :=
  Inv.returns_advanceValue (h v k) cfg

/-- Settles O33: the gate decides between the two equations of `cupdNoise`; on the active path the envelopes return what
they hold, because the invariants keep each read in the table. -/
theorem noiseUpdate : Obligations.NoiseUpdate := by
  unfold Obligations.NoiseUpdate
  refine fun s => ⟨fun hoff => ?off, fun hinv hon => ?active⟩
  case off => exact ⟨_, exec_cupd_of_eq (cupdNoise_off _ _ hoff), rfl, puts_complete ..⟩
  case active =>
    have hret := Block.Inv.returns_readOf hinv Config.current .noi
    refine ⟨_, _, _, _, exec_cupd_of_eq (cupdNoise_active _ _ hon), hret .arp, hret .vol, hret .duty,
      activeBlock_advancesVoice .., activeBlock_sameChannels .., ?ports⟩
    rw [apuWrite_nPer, apuWrite_nVol, noisePeriod_toNat, scaledVolume_eq_volumeOf]
    exact puts_complete ..

end Sys2Proof.Machine
end

section
/-! PROOFS. The register writes of CUPD from numbers (spec R44, R45, R50), and the period as the statements give it
(spec R124). -/

namespace Sys2Proof.Machine

open Sys2Proof.Stmt

/-! ### Period -/

theorem pMin_le_pMax (t : Tone) : pMin ≤ pMax t := by cases t <;> decide

theorem tonePeriod_eq_periodOf (t : Tone) (c : Chan) (a f : Value) :
    tonePeriod Config.current t c a f = periodOf t (pMax t) c a f := by
  rw [tonePeriod, clamp_eq_max_min (pMin_le_pMax t)]; rfl

/-! ### Addresses and bytes -/

/-- A write from the number of its address and the number of its byte. -/
theorem apuWrite_eq_wr {r : ApuReg} {x : Byte} {a d : Nat} (ha : regAddr r = BitVec.ofNat 16 a)
    (hx : x = BitVec.ofNat 8 d) : apuWrite r x = wr a d := by
  rw [apuWrite, ha, hx, wr]

section Addresses
variable (p q : Fin 2)

theorem regAddr_pVol : regAddr (.pVol p) = BitVec.ofNat 16 (0x4000 + 4 * p.val) := by revert p; decide
theorem regAddr_pSweep : regAddr (.pSweep p) = BitVec.ofNat 16 (0x4000 + 4 * p.val + 1) := by revert p; decide
theorem regAddr_pLo : regAddr (.pLo p) = BitVec.ofNat 16 (0x4000 + 4 * p.val + 2) := by revert p; decide
theorem regAddr_pHi : regAddr (.pHi p) = BitVec.ofNat 16 (0x4000 + 4 * p.val + 3) := by revert p; decide
theorem regAddr_vVol : regAddr (.vVol q) = BitVec.ofNat 16 (0x9000 + 0x1000 * q.val) := by revert q; decide
theorem regAddr_vLo : regAddr (.vLo q) = BitVec.ofNat 16 (0x9001 + 0x1000 * q.val) := by revert q; decide
theorem regAddr_vHi : regAddr (.vHi q) = BitVec.ofNat 16 (0x9002 + 0x1000 * q.val) := by revert q; decide

end Addresses

theorem byte_ofNat_mod (n : Nat) : BitVec.ofNat 8 n = BitVec.ofNat 8 (n % 256) :=
  BitVec.eq_of_toNat_eq (by simp)

theorem periodLo_eq (P : Nat) : periodLo P = BitVec.ofNat 8 (P % 256) := byte_ofNat_mod P

theorem pulseVol_ofInt (d V : Int) :
    pulseVol (BitVec.ofInt 2 d) V = BitVec.ofNat 8 ((d % 4).toNat * 64 + 0x30 + (V % 16).toNat) := by
  have hd : (BitVec.ofInt 2 d).toNat = (d % 4).toNat := BitVec.toNat_ofInt ..
  rw [pulseVol_eq, hd, Nat.mul_comm]

theorem vrc6Vol_ofInt (d V : Int) :
    vrc6Vol (BitVec.ofInt 3 d) V = BitVec.ofNat 8 ((d % 8).toNat * 16 + (V % 16).toNat) := by
  have hd : (BitVec.ofInt 3 d).toNat = (d % 8).toNat := BitVec.toNat_ofInt ..
  rw [vrc6Vol_eq, hd, Nat.mul_comm]

theorem vrc6DutyOnly_ofInt (d : Int) : vrc6DutyOnly (BitVec.ofInt 3 d) = BitVec.ofNat 8 ((d % 8).toNat * 16) := by
  have hd : (BitVec.ofInt 3 d).toNat = (d % 8).toNat := BitVec.toNat_ofInt ..
  rw [vrc6DutyOnly_eq, hd, Nat.mul_comm]

theorem triLin_eq (V : Int) : triLin V = BitVec.ofNat 8 (if V = 0 then 0x80 else 0xFF) := by
  rw [triLin]; split_ifs <;> rfl

end Sys2Proof.Machine
end

section
/-! PROOFS. CUPD on Pulse (spec R143 to R147): the period writes by the way the coarse period moves, then the two
paths. -/

namespace Sys2Proof.Machine

open Sys2Proof.Stmt

theorem cupd_pulseChannel (cfg : Config) (p : Fin 2) (b : Block) :
    cupd cfg (pulseChannel p) b = cupdPulse cfg p (pulseVoice p) b := by
  match p with
  | 0 => rfl
  | 1 => rfl

theorem voiceChannel_pulseVoice (p : Fin 2) : voiceChannel (pulseVoice p) = pulseChannel p := by
  revert p; decide

/-- Settles O30: the Off path of `cupdPulse` is the one silencing write. -/
theorem pulseSilence : Obligations.PulseSilence := by
  unfold Obligations.PulseSilence
  intro p s hoff
  have hcupd := (cupd_pulseChannel Config.current p s.block).trans (cupdPulse_off _ _ hoff)
  have hwrite : apuWrite (.pVol p) constBits = wr (0x4000 + 4 * p.val) 0x30 := apuWrite_eq_wr (regAddr_pVol p) rfl
  refine ⟨_, exec_cupd_of_eq hcupd, rfl, ?_⟩
  rw [hwrite]
  exact puts_complete ..

/-! ### The period writes (spec R144 to R146) -/

theorem coarse_toNat (P : Nat) : (coarse P).toNat = P / 256 % 8 := BitVec.toNat_ofNat ..

theorem apuWrite_pLo_periodLo (p : Fin 2) (P : Nat) :
    apuWrite (.pLo p) (periodLo P) = wr (0x4000 + 4 * p.val + 2) (P % 256) :=
  apuWrite_eq_wr (regAddr_pLo p) (periodLo_eq P)

theorem apuWrite_pHi_periodHi (p : Fin 2) (P : Nat) :
    apuWrite (.pHi p) (periodHi (coarse P)) = wr (0x4000 + 4 * p.val + 3) (P / 256 % 8) :=
  apuWrite_eq_wr (regAddr_pHi p) (periodHi_eq P)

theorem sweepTrick_up (p : Fin 2) :
    sweepTrick p true =
      [wr 0x4017 0x40, wr (0x4000 + 4 * p.val + 2) 0xFF, wr (0x4000 + 4 * p.val + 1) 0x87, wr 0x4017 0xC0,
        wr (0x4000 + 4 * p.val + 1) 0x0F] := by
  revert p; decide

theorem sweepTrick_down (p : Fin 2) :
    sweepTrick p false =
      [wr 0x4017 0x40, wr (0x4000 + 4 * p.val + 2) 0x00, wr (0x4000 + 4 * p.val + 1) 0x8F, wr 0x4017 0xC0,
        wr (0x4000 + 4 * p.val + 1) 0x0F] := by
  revert p; decide

/-- The model compares three-bit coarse periods, the statement their numbers. -/
theorem pulsePeriodWrites_eq_pulseWrites (p : Fin 2) (prev : Option (BitVec 3)) (P : Nat) :
    pulsePeriodWrites p prev P = pulseWrites (0x4000 + 4 * p.val) (prev.map BitVec.toNat) P := by
  cases prev with
  | none => simp [pulsePeriodWrites, pulseWrites, apuWrite_pLo_periodLo, apuWrite_pHi_periodHi]
  | some old =>
    have hsame : coarse P = old ↔ old.toNat = P / 256 % 8 := by
      rw [← BitVec.toNat_inj, coarse_toNat, eq_comm]
    have hup : (coarse P).toNat = old.toNat + 1 ↔ old.toNat + 1 = P / 256 % 8 := by rw [coarse_toNat, eq_comm]
    have hdown : (coarse P).toNat + 1 = old.toNat ↔ old.toNat = P / 256 % 8 + 1 := by rw [coarse_toNat, eq_comm]
    simp only [pulsePeriodWrites, pulseWrites, apuWrite_pLo_periodLo, apuWrite_pHi_periodHi, sweepTrick_up,
      sweepTrick_down, hup, hdown, hsame, Option.map_some, Option.some_inj, reduceCtorEq, if_false, List.cons_append,
      List.nil_append]

/-! ### The active path -/

/-- The shadow is no envelope. -/
theorem advancesVoice_setPrevHi {v : Voice} {b b' : Block} (h : AdvancesVoice v b b') (p : Fin 2) (hi : BitVec 3) :
    AdvancesVoice v b (b'.setPrevHi p hi) := h

/-- Settles O31: the block after is the active block with the shadow written; the trace is the period writes, then the
volume byte. -/
theorem pulseActive : Obligations.PulseActive := by
  unfold Obligations.PulseActive
  intro p s hinv hon
  have hret := Block.Inv.returns_readOf hinv Config.current (pulseVoice p)
  have hcupd := (cupd_pulseChannel Config.current p s.block).trans (cupdPulse_active _ _ hon)
  obtain ⟨hchan, hprev, htrig, hrel⟩ := activeBlock_sameChannels Config.current (pulseVoice p) s.block
  rw [voiceChannel_pulseVoice, tonePeriod_eq_periodOf, scaledVolume_eq_volumeOf, pulsePeriodWrites_eq_pulseWrites,
    apuWrite_eq_wr (regAddr_pVol p) (pulseVol_ofInt ..)] at hcupd
  refine ⟨_, _, _, _, _, exec_cupd_of_eq hcupd, hret .arp, hret .pitch, hret .vol, hret .duty,
    advancesVoice_setPrevHi (activeBlock_advancesVoice ..) .., hchan, htrig, hrel, fun p' hp' => ?otherShadow, ?shadow,
    puts_complete ..⟩
  case otherShadow => rw [complete_block, prevHiOf_setPrevHi, if_neg hp', hprev]
  case shadow => rw [complete_block, prevHiOf_setPrevHi, if_pos rfl]; rfl

end Sys2Proof.Machine
end

section
/-! PROOFS. CUPD on Triangle, VRC6 Pulse and VRC6 Saw (spec R148, R150, R151): each path of the variant with its writes
from numbers. -/

namespace Sys2Proof.Machine

open Sys2Proof.Stmt

/-- Settles O32: the gate decides between the two equations of `cupdTriangle`. -/
theorem triangleUpdate : Obligations.TriangleUpdate := by
  unfold Obligations.TriangleUpdate
  refine fun s => ⟨fun hoff => ?off, fun hinv hon => ?active⟩
  case off => exact ⟨_, exec_cupd_of_eq (cupdTriangle_off _ _ hoff), rfl, puts_complete ..⟩
  case active =>
    have hret := Block.Inv.returns_readOf hinv Config.current .tri
    refine ⟨_, _, _, _, exec_cupd_of_eq (cupdTriangle_active _ _ hon), hret .arp, hret .pitch, hret .vol,
      activeBlock_advancesVoice .., activeBlock_sameChannels .., ?ports⟩
    dsimp only
    rw [tonePeriod_eq_periodOf, scaledVolume_eq_volumeOf, apuWrite_eq_wr rfl (periodLo_eq _),
      apuWrite_eq_wr rfl (periodHi_eq _), apuWrite_eq_wr rfl (triLin_eq _)]
    exact puts_complete ..

/-! ### The Off path of the VRC6 variants -/

theorem env_setEnv_advance (b : Block) (v : Voice) (k : EnvKind) :
    (b.setEnv v k (b.env v k).advance).env v k = advanced (b.env v k) := by
  rw [env_setEnv_same, advance_eq_advanced]

/-! ### VRC6 Pulse -/

theorem cupd_vrc6Channel (cfg : Config) (q : Fin 2) (b : Block) :
    cupd cfg (voiceChannel (vrc6Voice q)) b = cupdVrc6Pulse cfg q (vrc6Voice q) b := by
  match q with
  | 0 => rfl
  | 1 => rfl

/-- Settles O34: the gate decides between the two equations of `cupdVrc6Pulse`; the invariants keep each read, the Off
path's duty read too, in the table. -/
theorem vrc6PulseUpdate : Obligations.Vrc6PulseUpdate := by
  unfold Obligations.Vrc6PulseUpdate
  intro q s hinv
  have hret := Block.Inv.returns_readOf hinv Config.current (vrc6Voice q)
  have hcupd := cupd_vrc6Channel Config.current q s.block
  refine ⟨fun hoff => ?off, fun hon => ?active⟩
  case off =>
    rw [cupdVrc6Pulse_off _ _ hoff, apuWrite_eq_wr (regAddr_vVol q) (vrc6DutyOnly_ofInt _)] at hcupd
    exact ⟨_, _, exec_cupd_of_eq hcupd, hret .duty, env_setEnv_advance .., sameButEnv_setEnv .., puts_complete ..⟩
  case active =>
    rw [cupdVrc6Pulse_active _ _ hon] at hcupd
    dsimp only at hcupd
    rw [tonePeriod_eq_periodOf, scaledVolume_eq_volumeOf,
      apuWrite_eq_wr (regAddr_vLo q) (periodLo_eq _), apuWrite_eq_wr (regAddr_vHi q) (vrc6Hi_eq _),
      apuWrite_eq_wr (regAddr_vVol q) (vrc6Vol_ofInt ..)] at hcupd
    exact ⟨_, _, _, _, _, exec_cupd_of_eq hcupd, hret .arp, hret .pitch, hret .vol, hret .duty,
      activeBlock_advancesVoice .., activeBlock_sameChannels .., puts_complete ..⟩

/-! ### VRC6 Saw -/

theorem sawVol_eq_mul_four (V : Int) : sawVol V = BitVec.ofNat 8 ((V * 4) % 64).toNat := by
  rw [sawVol_eq, mul_comm]

/-- Settles O35: the gate decides between the two equations of `cupdSaw`. -/
theorem sawUpdate : Obligations.SawUpdate := by
  unfold Obligations.SawUpdate
  refine fun s hinv => ⟨fun hoff => ?off, fun hon => ?active⟩
  case off =>
    exact ⟨_, exec_cupd_of_eq (cupdSaw_off _ _ hoff), env_setEnv_advance .., sameButEnv_setEnv .., puts_complete ..⟩
  case active =>
    have hret := Block.Inv.returns_readOf hinv Config.current .saw
    refine ⟨_, _, _, _, exec_cupd_of_eq (cupdSaw_active _ _ hon), hret .arp, hret .pitch, hret .vol,
      activeBlock_advancesVoice .., activeBlock_sameChannels .., ?ports⟩
    dsimp only
    rw [tonePeriod_eq_periodOf, scaledVolume_eq_volumeOf, apuWrite_eq_wr rfl (periodLo_eq _),
      apuWrite_eq_wr rfl (vrc6Hi_eq _), apuWrite_eq_wr rfl (sawVol_eq_mul_four _)]
    exact puts_complete ..

end Sys2Proof.Machine
end

section
/-! PROOFS. CUPD on Dpcm (spec R152): the trigger writes of a note by what the table holds for it. -/

namespace Sys2Proof.Machine

open Sys2Proof.Stmt

theorem dpcmAddr_eq (A : Nat) : dpcmAddr A = BitVec.ofNat 8 (A / 64 % 256) := byte_ofNat_mod _

theorem dpcmLen_eq (L : Nat) : dpcmLen L = BitVec.ofNat 8 (L / 16 % 256) := by
  rw [dpcmLen, Nat.shiftRight_eq_div_pow, byte_ofNat_mod]

/-- The trigger is skipped at three places: no patch, no sample of the patch, no such sample in the table. -/
theorem dpcmTriggerWrites_eq_dpcmWrites (note : BitVec 7) :
    dpcmTriggerWrites Config.current note = dpcmWrites note.toNat := by
  have hpatch : Config.current.patches (Fin.ofNat 12 note.toNat) = patchOfNote Config.current note := rfl
  rw [dpcmTriggerWrites, dpcmWrites, hpatch]
  match patchOfNote Config.current note with
  | none => rfl
  | some ⟨_, _, none⟩ => rfl
  | some ⟨pitch, loop, some i⟩ =>
    dsimp only
    match sampleAddr Config.current i, sampleLen Config.current i with
    | none, _ => rfl
    | some _, none => rfl
    | some A, some L =>
      dsimp only
      rw [apuWrite_eq_wr rfl (dpcmAddr_eq A), apuWrite_eq_wr rfl (dpcmLen_eq L), apuWrite_eq_wr rfl (dpcmFreq_eq _)]
      rfl

/-- Settles O36: the block and the order of the writes are those of `cupdDpcm`, the trigger writes those of the note. -/
theorem dpcmUpdate : Obligations.DpcmUpdate := by
  unfold Obligations.DpcmUpdate
  intro s
  refine ⟨_, exec_cupd .dmc s, rfl, ?ports⟩
  rw [← dpcmTriggerWrites_eq_dpcmWrites]
  exact puts_complete ..

end Sys2Proof.Machine
end

section
/-! PROOFS. FRAME (spec R160): CUPD commands issued one after another leave the block and the trace of `cupdAll`. -/

namespace Sys2Proof.Machine

open Sys2Proof.Stmt

/-- A sequence of CUPD, one command each, against the same updates in one command; the responses differ, one for each
command against one (spec R66). -/
theorem execAll_map_cupd (chs : List Channel) (s : State) :
    ∃ u, execAll (chs.map .cupd) s = some u ∧ u.block = (cupdAll Config.current chs s.block).block ∧
      u.trace = s.trace ++ (cupdAll Config.current chs s.block).writes := by
  induction chs generalizing s with
  | nil => exact ⟨s, rfl, rfl, (List.append_nil _).symm⟩
  | cons ch chs ih =>
    obtain ⟨u, hrun, hblock, htrace⟩ :=
      ih (s.complete (cupd Config.current ch s.block).block (cupd Config.current ch s.block).writes 0)
    refine ⟨u, hrun, hblock, ?_⟩
    rw [htrace, complete_trace, List.append_assoc]
    rfl

/-- Settles O38: FRAME runs `cupdAll` on the eight channels, which is what the eight commands amount to. -/
theorem frameIsEightUpdates : Obligations.FrameIsEightUpdates := by
  unfold Obligations.FrameIsEightUpdates
  intro s
  obtain ⟨u, hrun, hblock, htrace⟩ := execAll_map_cupd allChannels s
  refine ⟨_, u, exec_frame s, hrun, ?block, ?trace, complete_commands .., complete_responses ..⟩
  case block => rw [complete_block, hblock]
  case trace => rw [complete_trace, htrace]

end Sys2Proof.Machine
end

section
/-! PROOFS. Encoding (spec R60 to R65): the fields of a word of each format, so that the decoder takes back the operands
the encoder put in; and a word whose unused fields are zero, so that the encoder rebuilds it from the operands. -/

namespace Sys2Proof

open Sys2Proof.Machine Sys2Proof.Stmt

/-! ### The fields of an encoded word -/

section EncodedFields
variable (o : Opcode) (ch : Channel) (k : EnvKind) (i : Fin 64) (n : Value)

@[simp] theorem chOf_wordE0 : chOf (wordE0 o ch k) = ch.code := chOf_packWord ..
@[simp] theorem envOf_wordE0 : envOf (wordE0 o ch k) = k.code := envOf_packWord ..
@[simp] theorem chOf_wordEI : chOf (wordEI o ch k n) = ch.code := chOf_packWord ..
@[simp] theorem envOf_wordEI : envOf (wordEI o ch k n) = k.code := envOf_packWord ..
@[simp] theorem immOf_wordEI : immOf (wordEI o ch k n) = n := immOf_packWord ..
@[simp] theorem chOf_wordEXI : chOf (wordEXI o ch k i n) = ch.code := chOf_packWord ..
@[simp] theorem envOf_wordEXI : envOf (wordEXI o ch k i n) = k.code := envOf_packWord ..
@[simp] theorem idxOf_wordEXI : idxOf (wordEXI o ch k i n) = indexCode i := idxOf_packWord ..
@[simp] theorem immOf_wordEXI : immOf (wordEXI o ch k i n) = n := immOf_packWord ..
@[simp] theorem chOf_wordCI : chOf (wordCI o ch n) = ch.code := chOf_packWord ..
@[simp] theorem immOf_wordCI : immOf (wordCI o ch n) = n := immOf_packWord ..

end EncodedFields

/-- The first two checks of the decoder pass on the word of every command: the family of Laws/PerInstr, joined. -/
theorem framed (i : Instr) : Laws.Framed.Statement i := by
  cases i with
  | etrig ch k => exact Laws.Framed.etrig ch k
  | erel ch k => exact Laws.Framed.erel ch k
  | eadv ch k => exact Laws.Framed.eadv ch k
  | eslen ch k n => exact Laws.Framed.eslen ch k n
  | esloop ch k n => exact Laws.Framed.esloop ch k n
  | esrel ch k n => exact Laws.Framed.esrel ch k n
  | esdiv ch k n => exact Laws.Framed.esdiv ch k n
  | esval ch k j n => exact Laws.Framed.esval ch k j n
  | eldval ch k j n => exact Laws.Framed.eldval ch k j n
  | estep ch k => exact Laws.Framed.estep ch k
  | egraw ch k => exact Laws.Framed.egraw ch k
  | egstate ch k => exact Laws.Framed.egstate ch k
  | eglen ch k => exact Laws.Framed.eglen ch k
  | egloop ch k => exact Laws.Framed.egloop ch k
  | egrel ch k => exact Laws.Framed.egrel ch k
  | egdiv ch k => exact Laws.Framed.egdiv ch k
  | egval ch k j => exact Laws.Framed.egval ch k j
  | ctrig ch note vel rt => exact Laws.Framed.ctrig ch note vel rt
  | crel ch => exact Laws.Framed.crel ch
  | cbend ch n => exact Laws.Framed.cbend ch n
  | ckeyt ch b => exact Laws.Framed.ckeyt ch b
  | cvsens ch b => exact Laws.Framed.cvsens ch b
  | cupd ch => exact Laws.Framed.cupd ch
  | frame => exact Laws.Framed.frame

/-- The decoder takes back from a command's word the operands the encoder put in: each field is read back, and each
operand code. -/
theorem operands_encode (i : Instr) : i.opcode.operands (encode i) = i := by
  cases i <;> simp [encode, Instr.opcode, Opcode.operands]

/-- Settles O1: the word of a command passes the decoder's first two checks, the operands come back, and the third check
is well-formedness. -/
theorem decodeOfEncode : Obligations.DecodeOfEncode := by
  unfold Obligations.DecodeOfEncode
  intro i hwf
  obtain ⟨hopc, hfields⟩ := framed i
  refine decode_ok.mpr ⟨i.opcode, ?assigned, hfields, operands_encode i, hwf⟩
  case assigned => rw [hopc, opcode_ofCode_code]

/-! ### A legal word is rebuilt from its operands -/

/-- What the second check of the decoder says of the five fields (spec R65). -/
theorem fieldsOk_iff (f : Format) (w : CommandWord) :
    f.fieldsOk w = true ↔ rsvOf w = 0 ∧ (f.usesCh = false → chOf w = 0) ∧ (f.usesEnv = false → envOf w = 0) ∧
      (f.usesIdx = false → idxOf w = 0) ∧ immOf w &&& f.immZero = 0 := by
  cases f <;> simp [Format.fieldsOk, Format.usesCh, Format.usesEnv, Format.usesIdx, and_assoc]

theorem eq_zero_of_and_allOnes {n : Value} (h : n &&& 0xFFFFFFFF = 0) : n = 0 := by
  rwa [show (0xFFFFFFFF : Value) = BitVec.allOnes 32 from rfl, BitVec.and_allOnes] at h

section Rebuilt
variable {o : Opcode} {w : CommandWord} (hopc : o.code = opcOf w)
include hopc

theorem wordE0_fields (h : Format.e0.fieldsOk w = true) :
    wordE0 o (Channel.ofCode (chOf w)) (EnvKind.ofCode (envOf w)) = w := by
  obtain ⟨hrsv, -, -, hidx, himm⟩ := (fieldsOk_iff _ w).mp h
  conv_rhs => rw [← packWord_fields w, hrsv, hidx rfl, eq_zero_of_and_allOnes himm]
  simp [wordE0, hopc]

theorem wordEI_fields (h : Format.ei.fieldsOk w = true) :
    wordEI o (Channel.ofCode (chOf w)) (EnvKind.ofCode (envOf w)) (immOf w) = w := by
  obtain ⟨hrsv, -, -, hidx, -⟩ := (fieldsOk_iff _ w).mp h
  conv_rhs => rw [← packWord_fields w, hrsv, hidx rfl]
  simp [wordEI, hopc]

theorem wordEXI_fields (h : Format.exi.fieldsOk w = true) :
    wordEXI o (Channel.ofCode (chOf w)) (EnvKind.ofCode (envOf w)) (indexOfCode (idxOf w)) (immOf w) = w := by
  obtain ⟨hrsv, -⟩ := (fieldsOk_iff _ w).mp h
  conv_rhs => rw [← packWord_fields w, hrsv]
  simp [wordEXI, hopc]

theorem wordEX_fields (h : Format.ex.fieldsOk w = true) :
    wordEXI o (Channel.ofCode (chOf w)) (EnvKind.ofCode (envOf w)) (indexOfCode (idxOf w)) 0 = w := by
  obtain ⟨hrsv, -, -, -, himm⟩ := (fieldsOk_iff _ w).mp h
  conv_rhs => rw [← packWord_fields w, hrsv, eq_zero_of_and_allOnes himm]
  simp [wordEXI, hopc]

/-- A channel command with its immediate; `n` is what the encoder makes of the immediate's operands. -/
theorem wordCI_fields {f : Format} {n : Value} (h : f.fieldsOk w = true) (henv : f.usesEnv = false)
    (hidx : f.usesIdx = false) (hn : n = immOf w) : wordCI o (Channel.ofCode (chOf w)) n = w := by
  obtain ⟨hrsv, -, he, hi, -⟩ := (fieldsOk_iff _ w).mp h
  conv_rhs => rw [← packWord_fields w, hrsv, he henv, hi hidx]
  simp [wordCI, hopc, hn]

theorem wordG0_fields (h : Format.g0.fieldsOk w = true) : packWord o.code 0 0 0 0 0 = w := by
  obtain ⟨hrsv, hch, henv, hidx, himm⟩ := (fieldsOk_iff _ w).mp h
  conv_rhs => rw [← packWord_fields w, hrsv, hch rfl, henv rfl, hidx rfl, eq_zero_of_and_allOnes himm]
  rw [hopc]

end Rebuilt

/-- A word that passes the first two checks of the decoder is the word of the operands taken from it: the encoder fills
the fields the format uses from them, and the others are zero. -/
theorem encode_operands {o : Opcode} {w : CommandWord} (hopc : o.code = opcOf w) (h : o.format.fieldsOk w = true) :
    encode (o.operands w) = w := by
  obtain ⟨-, -, -, -, himm⟩ := (fieldsOk_iff _ w).mp h
  cases o with
  | etrig | erel | eadv | estep | egraw | egstate | eglen | egloop | egrel | egdiv => exact wordE0_fields hopc h
  | eslen | esloop | esrel | esdiv => exact wordEI_fields hopc h
  | esval | eldval => exact wordEXI_fields hopc h
  | egval => exact wordEX_fields hopc h
  | ctrig => exact wordCI_fields hopc h rfl rfl (ctImm_fields himm)
  | crel | cupd => exact wordCI_fields hopc h rfl rfl (eq_zero_of_and_allOnes himm).symm
  | cbend => exact wordCI_fields hopc h rfl rfl rfl
  | ckeyt | cvsens => exact wordCI_fields hopc h rfl rfl (cfImm_flag himm)
  | frame => exact wordG0_fields hopc h

/-- Settles O2: a word that decodes passes the three checks, the first two make it the word of its operands, the third
says they are well formed. -/
theorem encodeOfDecode : Obligations.EncodeOfDecode := by
  unfold Obligations.EncodeOfDecode
  intro w i hdec
  obtain ⟨o, hcode, hfields, rfl, hwf⟩ := decode_ok.mp hdec
  exact ⟨encode_operands (opcode_code_of_ofCode hcode) hfields, hwf⟩

/-- Settles O4: the table's cause is the decoder's, and only a command has none. -/
theorem legalWordsAreTheTables : Obligations.LegalWordsAreTheTables := by
  unfold Obligations.LegalWordsAreTheTables
  intro w
  rw [illegalCause_eq_causeOf_decode]
  cases decode w with
  | ok i => simp [causeOf]
  | error c => simp [causeOf]

/-! ### Words of the spec -/

/-- A written word is a command's when it is the word the encoder gives it. -/
theorem decode_of_eq_encode {w : CommandWord} {i : Instr} (hw : w = encode i) (hwf : i.WellFormed) : decode w = .ok i :=
  hw ▸ decodeOfEncode i hwf

/-- Settles O3: each written word is the encoder's word of its command, which evaluates, and O1 decodes it. -/
theorem writtenWordsDecode : Obligations.WrittenWordsDecode := by
  unfold Obligations.WrittenWordsDecode
  refine ⟨?_, ?_, ?_, ?_, ?_, ?_, ?_, ?_, ?_, ?_⟩ <;> exact decode_of_eq_encode (by decide) (by decide)

/-! ### The command port -/

theorem step_of_decode_ok {s : State} {w : CommandWord} {ws : List CommandWord} {i : Instr}
    (hs : s.commands = w :: ws) (hd : decode w = .ok i) : step s = exec i { s with commands := ws } := by
  simp only [step, fetch?, hs, runWord, hd]

theorem step_of_no_command {s : State} (hs : s.commands = []) : step s = .next s := by
  simp only [step, fetch?, hs]

/-- Settles O6: `step` takes the word from the port and runs what it decodes to. -/
theorem stepRunsDecodedCommand : Obligations.StepRunsDecodedCommand := by
  unfold Obligations.StepRunsDecodedCommand
  exact fun s w ws i => step_of_decode_ok

/-- Settles O7: `step` finds no word in the port. -/
theorem stepWaitsWithoutCommand : Obligations.StepWaitsWithoutCommand := by
  unfold Obligations.StepWaitsWithoutCommand
  exact fun s => step_of_no_command

/-- Issuing a whole word puts it ahead of those pending. -/
theorem withFetchWord_word (s : State) (w : CommandWord) :
    s.withFetchWord 64 w.toNat = { s with commands := w :: s.commands } := by
  have hword : tableWord? 64 w.toNat = some w := by
    rw [tableWord?, if_pos (le_refl 64), Nat.mod_eq_of_lt w.isLt, BitVec.ofNat_toNat, BitVec.setWidth_eq]
  rw [State.withFetchWord, issueFirst, hword]

/-- Settles O8: the word issued first is the next one taken, and by O1 it decodes to the command. -/
theorem issuedCommandRuns : Obligations.IssuedCommandRuns := by
  unfold Obligations.IssuedCommandRuns
  intro s i hwf
  rw [withFetchWord_word]
  exact step_of_decode_ok rfl (decodeOfEncode i hwf)

end Sys2Proof
end

section
/-! PROOFS. What `exec` can do, said once for all commands: an inversion of its answer, and what each command can make of
one envelope, one channel's attributes, a shadow and the pending flags. -/

namespace Sys2Proof.Machine

open Sys2Proof.Stmt

/-! ### The answer of `exec` -/

/-- What a command that addresses no envelope does to the block, and the writes it emits; of no meaning for one that
addresses an envelope. -/
def chanEffect (i : Instr) (b : Block) : Emit :=
  match i with
  | .ctrig ch note vel rt =>
    match voice? ch with
    | some v => ⟨trigVoice v note vel rt b, []⟩
    | none => ⟨trigDpcm note b, []⟩
  | .crel ch =>
    match voice? ch with
    | some v => ⟨b.mapVoice v Envelope.release, []⟩
    | none => ⟨{ b with pendingRelease := true }, []⟩
  | .cbend ch n => ⟨b.setChan ch { b.chan ch with bend := n }, []⟩
  | .ckeyt ch x => ⟨b.setChan ch { b.chan ch with keyTrackEnabled := x }, []⟩
  | .cvsens ch x => ⟨b.setChan ch { b.chan ch with velocitySensEnabled := x }, []⟩
  | .cupd ch => cupd Config.current ch b
  | .frame => cupdAll Config.current allChannels b
  | _ => ⟨b, []⟩

section ChanEffect
variable (v : Voice) (note vel : BitVec 7) (rt : Bool) (b : Block)

theorem chanEffect_ctrig_voice :
    chanEffect (.ctrig (voiceChannel v) note vel rt) b = ⟨trigVoice v note vel rt b, []⟩ := by
  simp only [chanEffect, voice?_voiceChannel]

theorem chanEffect_ctrig_dmc : chanEffect (.ctrig .dmc note vel rt) b = ⟨trigDpcm note b, []⟩ := rfl

theorem chanEffect_crel_voice : chanEffect (.crel (voiceChannel v)) b = ⟨b.mapVoice v Envelope.release, []⟩ := by
  simp only [chanEffect, voice?_voiceChannel]

end ChanEffect

/-- A command that addresses no envelope completes with status OK and 0. -/
theorem exec_chan {i : Instr} (s : State) (h : i.envelope? = none) :
    exec i s = .next (s.complete (chanEffect i s.block).block (chanEffect i s.block).writes 0) := by
  cases i with
  | ctrig ch note vel rt =>
    obtain ⟨v, rfl⟩ | rfl := channel_cases ch
    · rw [exec_ctrig_voice, chanEffect_ctrig_voice]
    · rfl
  | crel ch =>
    obtain ⟨v, rfl⟩ | rfl := channel_cases ch
    · rw [exec_crel_voice, chanEffect_crel_voice]
    · rfl
  | cbend | ckeyt | cvsens | cupd | frame => rfl
  | _ => cases h

/-- What `exec` can answer: Illegal on an envelope command of channel 4, else the completion of the command, of an
envelope's or of a channel's. -/
theorem exec_cases {i : Instr} {s t : State} (h : exec i s = .next t) :
    (∃ k, i.envelope? = some (.dmc, k) ∧ t = s.raiseIllegal .noSuchEnvelope) ∨
    (∃ v k, i.envelope? = some (voiceChannel v, k) ∧
      t = s.complete (s.block.setEnv v k ((envEffect i).1 (s.block.env v k))) [] ((envEffect i).2 (s.block.env v k))) ∨
    (i.envelope? = none ∧ t = s.complete (chanEffect i s.block).block (chanEffect i s.block).writes 0) := by
  cases hi : i.envelope? with
  | none =>
    rw [exec_chan s hi] at h; cases h
    exact .inr (.inr ⟨rfl, rfl⟩)
  | some x =>
    obtain ⟨ch, k⟩ := x
    obtain ⟨v, rfl⟩ | rfl := channel_cases ch
    · rw [exec_env s hi] at h; cases h
      exact .inr (.inl ⟨v, k, rfl, rfl⟩)
    · rw [exec_env_dmc s hi] at h; cases h
      exact .inl ⟨k, rfl, rfl⟩

/-! ### One envelope -/

/-- What a command can make of `env[v][k]`: it is kept, or changed by an envelope command that addresses it, by a
retriggering CTRIG or a CREL of its channel, or advanced by an update of its channel. -/
inductive EnvMove (i : Instr) (v : Voice) (k : EnvKind) (e : Envelope) : Envelope → Prop
  | kept : EnvMove i v k e e
  | addressed (h : i.envelope? = some (voiceChannel v, k)) : EnvMove i v k e ((envEffect i).1 e)
  | triggered (note vel : BitVec 7) (h : i = .ctrig (voiceChannel v) note vel true) : EnvMove i v k e e.trigger
  | released (h : i = .crel (voiceChannel v)) : EnvMove i v k e e.release
  | updated (h : i = .cupd (voiceChannel v) ∨ i = .frame) : EnvMove i v k e e.advance

theorem cupd_envMove (ch : Channel) (v : Voice) (k : EnvKind) (b : Block) :
    EnvMove (.cupd ch) v k (b.env v k) ((cupd Config.current ch b).block.env v k) := by
  by_cases hv : voiceChannel v = ch
  · subst hv
    obtain h | h := cupd_env_cases Config.current b (voiceChannel v) v k <;> rw [h]
    · exact .kept
    · exact .updated (.inl rfl)
  · rw [cupd_env_other _ _ hv]; exact .kept

theorem cupdAll_env_other {cfg : Config} {chs : List Channel} {v : Voice} (h : voiceChannel v ∉ chs) (b : Block)
    (k : EnvKind) : (cupdAll cfg chs b).block.env v k = b.env v k := by
  induction chs generalizing b with
  | nil => rfl
  | cons ch chs ih =>
    rw [List.mem_cons, not_or] at h
    obtain ⟨hv, hvs⟩ := h
    rw [cupdAll, ih hvs, cupd_env_other _ _ hv]

/-- No channel is updated twice in a sequence without repeats, so no envelope is advanced twice. -/
theorem cupdAll_env_cases {cfg : Config} {chs : List Channel} (hn : chs.Nodup) (b : Block) (v : Voice) (k : EnvKind) :
    (cupdAll cfg chs b).block.env v k = b.env v k ∨ (cupdAll cfg chs b).block.env v k = (b.env v k).advance := by
  induction chs generalizing b with
  | nil => exact .inl rfl
  | cons ch chs ih =>
    obtain ⟨hch, hchs⟩ := List.nodup_cons.mp hn
    rw [cupdAll]
    by_cases hv : voiceChannel v = ch
    · subst hv
      rw [cupdAll_env_other hch]
      exact cupd_env_cases ..
    · rw [← cupd_env_other cfg b hv k]
      exact ih hchs _

theorem allChannels_nodup : allChannels.Nodup := by decide

theorem chanEffect_envMove (i : Instr) (v : Voice) (k : EnvKind) (b : Block) :
    EnvMove i v k (b.env v k) ((chanEffect i b).block.env v k) := by
  cases i with
  | ctrig ch note vel rt =>
    obtain ⟨w, rfl⟩ | rfl := channel_cases ch
    · rw [chanEffect_ctrig_voice, trigVoice_env]
      split_ifs with h
      · obtain ⟨rfl, rfl⟩ := h; exact .triggered note vel rfl
      · exact .kept
    · exact .kept
  | crel ch =>
    obtain ⟨w, rfl⟩ | rfl := channel_cases ch
    · rw [chanEffect_crel_voice, mapVoice_env]
      split_ifs with h
      · subst h; exact .released rfl
      · exact .kept
    · exact .kept
  | cupd ch => exact cupd_envMove ch v k b
  | frame =>
    obtain h | h := cupdAll_env_cases (cfg := Config.current) allChannels_nodup b v k <;> rw [chanEffect, h]
    · exact .kept
    · exact .updated (.inr rfl)
  | _ => exact .kept

theorem exec_envMove {i : Instr} {s t : State} (h : exec i s = .next t) (v : Voice) (k : EnvKind) :
    EnvMove i v k (s.block.env v k) (t.block.env v k) := by
  obtain ⟨k', -, rfl⟩ | ⟨v', k', hi, rfl⟩ | ⟨-, rfl⟩ := exec_cases h
  · exact .kept
  · rw [complete_block, env_setEnv]
    split_ifs with hvk
    · obtain ⟨rfl, rfl⟩ := hvk; exact .addressed hi
    · exact .kept
  · exact chanEffect_envMove ..

/-! ### One channel's attributes -/

/-- What a command can make of the attributes of channel `ch`: they are kept, or CTRIG stores a note, and a velocity only
when it retriggers, or CBEND, CKEYT or CVSENS writes its one field. -/
inductive ChanMove (i : Instr) (ch : Channel) (c : Chan) : Chan → Prop
  | kept : ChanMove i ch c c
  | triggered (note vel : BitVec 7) (rt : Bool) (n x : BitVec 7) (h : i = .ctrig ch note vel rt)
      (hvel : rt = true ∨ x = c.vel) : ChanMove i ch c { c with baseNote := n, vel := x }
  | bent (n : Value) (h : i = .cbend ch n) : ChanMove i ch c { c with bend := n }
  | keyTracked (x : Bool) (h : i = .ckeyt ch x) : ChanMove i ch c { c with keyTrackEnabled := x }
  | sensed (x : Bool) (h : i = .cvsens ch x) : ChanMove i ch c { c with velocitySensEnabled := x }

/-- A command that writes the attributes of `ch` moves them as it says and keeps those of every other channel. -/
theorem chanMove_setChan {i : Instr} {ch : Channel} {b : Block} {a : Chan} (h : ChanMove i ch (b.chan ch) a)
    (ch' : Channel) : ChanMove i ch' (b.chan ch') ((b.setChan ch a).chan ch') := by
  rw [chan_setChan]
  split_ifs with hch
  · subst hch; exact h
  · exact .kept

theorem cupdAll_chan (cfg : Config) (chs : List Channel) (b : Block) (ch : Channel) :
    (cupdAll cfg chs b).block.chan ch = b.chan ch := by
  induction chs generalizing b with
  | nil => rfl
  | cons c chs ih => rw [cupdAll, ih, cupd_chan]

theorem trigVoice_chanMove (v : Voice) (note vel : BitVec 7) (rt : Bool) (b : Block) (ch : Channel) :
    ChanMove (.ctrig (voiceChannel v) note vel rt) ch (b.chan ch) ((trigVoice v note vel rt b).chan ch) := by
  by_cases hch : ch = voiceChannel v
  · subst hch
    rw [trigVoice_chan_same]
    refine .triggered note vel rt _ _ rfl ?_
    cases rt with
    | false => exact .inr rfl
    | true => exact .inl rfl
  · rw [trigVoice_chan_other hch]; exact .kept

theorem chanEffect_chanMove (i : Instr) (ch : Channel) (b : Block) :
    ChanMove i ch (b.chan ch) ((chanEffect i b).block.chan ch) := by
  cases i with
  | ctrig ch' note vel rt =>
    obtain ⟨w, rfl⟩ | rfl := channel_cases ch'
    · rw [chanEffect_ctrig_voice]; exact trigVoice_chanMove ..
    · exact chanMove_setChan (.triggered note vel rt note _ rfl (.inr rfl)) ch
  | crel ch' =>
    obtain ⟨w, rfl⟩ | rfl := channel_cases ch'
    · rw [chanEffect_crel_voice]; exact .kept
    · exact .kept
  | cbend ch' n => exact chanMove_setChan (.bent n rfl) ch
  | ckeyt ch' x => exact chanMove_setChan (.keyTracked x rfl) ch
  | cvsens ch' x => exact chanMove_setChan (.sensed x rfl) ch
  | cupd ch' => rw [chanEffect, cupd_chan]; exact .kept
  | frame => rw [chanEffect, cupdAll_chan]; exact .kept
  | _ => exact .kept

theorem exec_chanMove {i : Instr} {s t : State} (h : exec i s = .next t) (ch : Channel) :
    ChanMove i ch (s.block.chan ch) (t.block.chan ch) := by
  obtain ⟨k, -, rfl⟩ | ⟨v, k, -, rfl⟩ | ⟨-, rfl⟩ := exec_cases h
  · exact .kept
  · exact .kept
  · exact chanEffect_chanMove ..

/-! ### The shadows and the pending flags -/

/-- What a command can do to the shadows and the pending flags: each is the same unless the command is one that writes
it. -/
structure ShadowMove (i : Instr) (b b' : Block) : Prop where
  prevHi : ∀ p, b'.prevHiOf p = b.prevHiOf p ∨ i = .cupd (pulseChannel p) ∨ i = .frame
  trigger : b'.pendingTrigger = b.pendingTrigger ∨ (∃ note vel rt, i = .ctrig .dmc note vel rt) ∨ i = .cupd .dmc ∨
    i = .frame
  release : b'.pendingRelease = b.pendingRelease ∨ i = .crel .dmc ∨ i = .cupd .dmc ∨ i = .frame

theorem ShadowMove.kept {i : Instr} {b b' : Block} (hp : ∀ p, b'.prevHiOf p = b.prevHiOf p)
    (ht : b'.pendingTrigger = b.pendingTrigger) (hr : b'.pendingRelease = b.pendingRelease) : ShadowMove i b b' :=
  ⟨fun p => .inl (hp p), .inl ht, .inl hr⟩

theorem cupd_shadowMove (ch : Channel) (b : Block) : ShadowMove (.cupd ch) b (cupd Config.current ch b).block where
  prevHi p := by
    by_cases hp : pulseChannel p = ch
    · exact .inr (.inl (congrArg _ hp.symm))
    · exact .inl (cupd_prevHiOf_other _ _ hp)
  trigger := by
    by_cases hd : ch = .dmc
    · exact .inr (.inr (.inl (congrArg _ hd)))
    · exact .inl (cupd_pending_other _ _ hd).1
  release := by
    by_cases hd : ch = .dmc
    · exact .inr (.inr (.inl (congrArg _ hd)))
    · exact .inl (cupd_pending_other _ _ hd).2

theorem chanEffect_shadowMove (i : Instr) (b : Block) : ShadowMove i b (chanEffect i b).block := by
  cases i with
  | ctrig ch note vel rt =>
    obtain ⟨w, rfl⟩ | rfl := channel_cases ch
    · rw [chanEffect_ctrig_voice]
      exact .kept trigVoice_prevHiOf trigVoice_pendingTrigger trigVoice_pendingRelease
    · exact ⟨fun _ => .inl rfl, .inr (.inl ⟨note, vel, rt, rfl⟩), .inl rfl⟩
  | crel ch =>
    obtain ⟨w, rfl⟩ | rfl := channel_cases ch
    · rw [chanEffect_crel_voice]
      exact .kept (fun _ => rfl) rfl rfl
    · exact ⟨fun _ => .inl rfl, .inl rfl, .inr (.inl rfl)⟩
  | cupd ch => exact cupd_shadowMove ch b
  | frame => exact ⟨fun _ => .inr (.inr rfl), .inr (.inr (.inr rfl)), .inr (.inr (.inr rfl))⟩
  | _ => exact .kept (fun _ => rfl) rfl rfl

theorem exec_shadowMove {i : Instr} {s t : State} (h : exec i s = .next t) : ShadowMove i s.block t.block := by
  obtain ⟨k, -, rfl⟩ | ⟨v, k, -, rfl⟩ | ⟨-, rfl⟩ := exec_cases h
  · exact .kept (fun _ => rfl) rfl rfl
  · exact .kept (fun _ => rfl) rfl rfl
  · exact chanEffect_shadowMove ..

end Sys2Proof.Machine
end

section
/-! PROOFS. Safety of the machine: every command keeps the invariants because every move of an envelope does; a step is
a command or an illegal word's answer; a run is a sequence of steps. And the commands a term or a state stops short. -/

namespace Sys2Proof.Machine

open Sys2Proof.Stmt

/-! ### The invariants through a command -/

theorem Inv.envEffect {e : Envelope} (he : e.Inv) (i : Instr) : ((envEffect i).1 e).Inv := by
  cases i with
  | etrig => exact Inv.trigger he
  | erel => exact Inv.release he
  | eadv => exact Inv.advance he
  | eslen ch k n => exact Inv.setLength he n
  | esloop ch k n => exact Inv.setLoop he n
  | esrel ch k n => exact Inv.setRelease he n
  | esdiv ch k n => exact Inv.setDivider he n
  | esval ch k j n => exact Inv.writeValue he j _
  | eldval ch k j n => exact Inv.writeValue he j n
  | _ => exact he

theorem EnvMove.inv {i : Instr} {v : Voice} {k : EnvKind} {e e' : Envelope} (h : EnvMove i v k e e') (he : e.Inv) :
    e'.Inv := by
  cases h with
  | kept => exact he
  | addressed => exact Inv.envEffect he i
  | triggered => exact Inv.trigger he
  | released => exact Inv.release he
  | updated => exact Inv.advance he

theorem exec_keeps_inv {i : Instr} {s t : State} (hs : s.Inv) (h : exec i s = .next t) : t.Inv :=
  fun v k => (exec_envMove h v k).inv (hs v k)

/-! ### Steps -/

/-- What a step is: nothing, with no word pending, else the execution of the next word's command or its Illegal
answer. -/
theorem step_cases (s : State) :
    (s.commands = [] ∧ step s = .next s) ∨
    ∃ w ws, s.commands = w :: ws ∧
      ((∃ i, decode w = .ok i ∧ step s = exec i { s with commands := ws }) ∨
        ∃ c, decode w = .error c ∧ step s = .next (State.raiseIllegal { s with commands := ws } c)) := by
  cases hs : s.commands with
  | nil => exact .inl ⟨rfl, step_of_no_command hs⟩
  | cons w ws =>
    refine .inr ⟨w, ws, rfl, ?_⟩
    cases hd : decode w with
    | ok i => exact .inl ⟨i, rfl, step_of_decode_ok hs hd⟩
    | error c => exact .inr ⟨c, rfl, step_of_decode_error hs hd⟩

/-- Settles O44: a step changes the block only by a command, and every command keeps the invariants. -/
theorem stepKeepsInvariants : Obligations.StepKeepsInvariants := by
  unfold Obligations.StepKeepsInvariants
  intro s t hs hstep
  obtain ⟨-, hw⟩ | ⟨w, ws, -, ⟨i, -, hw⟩ | ⟨c, -, hw⟩⟩ := step_cases s <;> rw [hw] at hstep
  · cases hstep; exact hs
  · exact exec_keeps_inv (s := { s with commands := ws }) hs hstep
  · cases hstep; exact hs

/-- No step stops (spec R166). -/
theorem step_next (s : State) : ∃ t, step s = .next t := by
  obtain ⟨-, hw⟩ | ⟨w, ws, -, ⟨i, -, hw⟩ | ⟨c, -, hw⟩⟩ := step_cases s <;> rw [hw]
  · exact ⟨s, rfl⟩
  · exact exec_next i _
  · exact ⟨_, rfl⟩

theorem run_succ_of_step {s t : State} (h : step s = .next t) (n : Nat) :
    Host.Core.run core (n + 1) s = Host.Core.run core n t := by
  have hcore : core.step s = .next t := h
  simp only [Host.Core.run, hcore]

/-- Settles O46, by induction on the number of steps: each completes (`step_next`) and keeps the invariants (O44). -/
theorem everyRunIsSafe : Obligations.EveryRunIsSafe := by
  unfold Obligations.EveryRunIsSafe
  intro n
  induction n with
  | zero => exact fun s hs => ⟨s, rfl, hs⟩
  | succ n ih =>
    intro s hs
    obtain ⟨t, hstep⟩ := step_next s
    rw [SafeRun, run_succ_of_step hstep]
    exact ih t (stepKeepsInvariants s t hs hstep)

theorem Inv.reset : Envelope.reset.Inv := by decide

/-- Settles O43: every envelope of the reset block is `Envelope.reset`. -/
theorem resetMeetsInvariants : Obligations.ResetMeetsInvariants := by
  unfold Obligations.ResetMeetsInvariants
  intro v k
  rw [State.reset_block, Block.reset_env]
  exact Inv.reset

/-! ### Answers -/

/-- The one thing well-formedness excludes (spec R62). -/
theorem wellFormed_iff (i : Instr) : i.WellFormed ↔ ∀ k, i.envelope? ≠ some (.dmc, k) := by
  rw [Instr.WellFormed, Instr.wf]
  cases i.envelope? with
  | none => simp
  | some x =>
    obtain ⟨ch, k⟩ := x
    simp only [bne_iff_ne, ne_eq, Option.some_inj, Prod.mk.injEq, not_and]
    exact ⟨fun h _ hch => absurd hch h, fun h hch => h k hch rfl⟩

/-- A well-formed command is answered by one response of status OK, and takes no word. -/
theorem exec_wellFormed {i : Instr} {s t : State} (hwf : i.WellFormed) (h : exec i s = .next t) :
    t.commands = s.commands ∧ ∃ x, t.responses = s.responses ++ [⟨.ok, x⟩] := by
  obtain ⟨k, hi, -⟩ | ⟨v, k, -, rfl⟩ | ⟨-, rfl⟩ := exec_cases h
  · exact absurd hi ((wellFormed_iff i).mp hwf k)
  · exact ⟨rfl, _, rfl⟩
  · exact ⟨rfl, _, rfl⟩

/-- Settles O45: a word that decodes runs a well-formed command, which answers OK once; any other answers ILLEGAL once. -/
theorem everyWordIsAnswered : Obligations.EveryWordIsAnswered := by
  unfold Obligations.EveryWordIsAnswered
  intro s
  obtain ⟨t, hstep⟩ := step_next s
  refine ⟨t, hstep, fun w ws hs => ?_⟩
  cases hd : decode w with
  | ok i =>
    rw [step_of_decode_ok hs hd] at hstep
    obtain ⟨hcmds, x, hresp⟩ := exec_wellFormed (encodeOfDecode w i hd).2 hstep
    exact ⟨hcmds, _, hresp, by simp⟩
  | error c =>
    rw [step_of_decode_error hs hd] at hstep
    cases hstep
    exact ⟨rfl, _, rfl, by simp⟩

/-- Settles O9: a term that is not well formed is an envelope command of channel 4. -/
theorem dpcmEnvelopeCommandsIllegal : Obligations.DpcmEnvelopeCommandsIllegal := by
  unfold Obligations.DpcmEnvelopeCommandsIllegal
  intro i s hwf
  rw [wellFormed_iff] at hwf
  push Not at hwf
  obtain ⟨k, hi⟩ := hwf
  exact exec_env_dmc s hi

/-! ### Off is absorbing -/

/-- Of the envelope commands only the trigger and the release can leave Off (spec R90). -/
theorem envEffect_state_of_off {i : Instr} {e : Envelope} {ch : Channel} {k : EnvKind} (hi : i.envelope? = some (ch, k))
    (he : e.state = .off) (htrig : i ≠ .etrig ch k) (hrel : i ≠ .erel ch k) : ((envEffect i).1 e).state = .off := by
  cases i with
  | etrig => cases hi; exact absurd rfl htrig
  | erel => cases hi; exact absurd rfl hrel
  | eadv => exact advancedState_of_off he
  | _ => exact he

/-- Settles O15: of the moves an envelope can make, those the hypotheses leave keep Off. -/
theorem offIsAbsorbing : Obligations.OffIsAbsorbing := by
  unfold Obligations.OffIsAbsorbing
  intro i s t v k h hoff htrig hrel hcrel hctrig
  have hmove := exec_envMove h v k
  generalize t.block.env v k = e' at hmove
  cases hmove with
  | kept => exact hoff
  | addressed hi => exact envEffect_state_of_off hi hoff htrig hrel
  | triggered note vel hi => exact absurd hi (hctrig note vel)
  | released hi => exact absurd hi hcrel
  | updated => exact advancedState_of_off hoff

/-! ### CBEND -/

/-- Writing a channel's attributes again changes nothing. -/
theorem setChan_setChan (b : Block) (ch : Channel) (a : Chan) : (b.setChan ch a).setChan ch a = b.setChan ch a := by
  simp [Block.setChan]

/-- Settles O28: CBEND writes back its channel's attributes with the bend changed, and does it again. -/
theorem bendWrite : Obligations.BendWrite := by
  unfold Obligations.BendWrite
  intro ch n s
  refine ⟨_, exec_cbend ch n s, chan_setChan_same .., fun _ => chan_setChan_other, fun _ _ => rfl, fun _ => rfl, rfl,
    rfl, puts_complete .., _, exec_cbend ch n _, ?again⟩
  case again => rw [complete_block, complete_block, chan_setChan_same, setChan_setChan]

end Sys2Proof.Machine
end

section
/-! PROOFS. Who writes what (spec R14 to R29, R180): each field's writers, and that a command leaves the other channels
alone, read off the moves a command can make. -/

namespace Sys2Proof.Machine

open Sys2Proof.Stmt

/-! ### The writers of an envelope's fields -/

section EnvWriters
variable {i : Instr} {v : Voice} {k : EnvKind} {e e' : Envelope} (h : EnvMove i v k e e')
include h

theorem EnvMove.values_writer (hne : e'.values ≠ e.values) :
    ∃ j n, i = .esval (voiceChannel v) k j n ∨ i = .eldval (voiceChannel v) k j n := by
  cases h with
  | addressed hi =>
    cases i with
    | esval ch k' j n => cases hi; exact ⟨j, n, .inl rfl⟩
    | eldval ch k' j n => cases hi; exact ⟨j, n, .inr rfl⟩
    | _ => exact absurd rfl hne
  | _ => exact absurd rfl hne

theorem EnvMove.points_writer
    (hne : e'.loopPoint ≠ e.loopPoint ∨ e'.releasePoint ≠ e.releasePoint ∨ e'.length ≠ e.length) :
    ∃ n, i = .eslen (voiceChannel v) k n ∨ i = .esloop (voiceChannel v) k n ∨ i = .esrel (voiceChannel v) k n := by
  rw [ne_eq, ne_eq, ne_eq, ← not_and_or, ← not_and_or] at hne
  cases h with
  | addressed hi =>
    cases i with
    | eslen ch k' n => cases hi; exact ⟨n, .inl rfl⟩
    | esloop ch k' n => cases hi; exact ⟨n, .inr (.inl rfl)⟩
    | esrel ch k' n => cases hi; exact ⟨n, .inr (.inr rfl)⟩
    | _ => exact absurd ⟨rfl, rfl, rfl⟩ hne
  | _ => exact absurd ⟨rfl, rfl, rfl⟩ hne

theorem EnvMove.speedDivider_writer (hne : e'.speedDivider ≠ e.speedDivider) : ∃ n, i = .esdiv (voiceChannel v) k n := by
  cases h with
  | addressed hi =>
    cases i with
    | esdiv ch k' n => cases hi; exact ⟨n, rfl⟩
    | _ => exact absurd rfl hne
  | _ => exact absurd rfl hne

/-- The writers of the state are those of the step but ESDIV (spec R20, R21). -/
theorem EnvMove.state_writer (hne : e'.state ≠ e.state) :
    i = .etrig (voiceChannel v) k ∨ i = .erel (voiceChannel v) k ∨ i = .eadv (voiceChannel v) k ∨
      (∃ note vel, i = .ctrig (voiceChannel v) note vel true) ∨ i = .crel (voiceChannel v) ∨
      i = .cupd (voiceChannel v) ∨ i = .frame := by
  cases h with
  | kept => exact absurd rfl hne
  | addressed hi =>
    cases i with
    | etrig => cases hi; exact .inl rfl
    | erel => cases hi; exact .inr (.inl rfl)
    | eadv => cases hi; exact .inr (.inr (.inl rfl))
    | _ => exact absurd rfl hne
  | triggered note vel hi => exact .inr (.inr (.inr (.inl ⟨note, vel, hi⟩)))
  | released hi => exact .inr (.inr (.inr (.inr (.inl hi))))
  | updated hi => exact .inr (.inr (.inr (.inr (.inr hi))))

theorem EnvMove.step_writer (hne : e'.step ≠ e.step) :
    i = .etrig (voiceChannel v) k ∨ i = .erel (voiceChannel v) k ∨ i = .eadv (voiceChannel v) k ∨
      (∃ n, i = .esdiv (voiceChannel v) k n) ∨ (∃ note vel, i = .ctrig (voiceChannel v) note vel true) ∨
      i = .crel (voiceChannel v) ∨ i = .cupd (voiceChannel v) ∨ i = .frame := by
  cases h with
  | kept => exact absurd rfl hne
  | addressed hi =>
    cases i with
    | etrig => cases hi; exact .inl rfl
    | erel => cases hi; exact .inr (.inl rfl)
    | eadv => cases hi; exact .inr (.inr (.inl rfl))
    | esdiv ch k' n => cases hi; exact .inr (.inr (.inr (.inl ⟨n, rfl⟩)))
    | _ => exact absurd rfl hne
  | triggered note vel hi => exact .inr (.inr (.inr (.inr (.inl ⟨note, vel, hi⟩))))
  | released hi => exact .inr (.inr (.inr (.inr (.inr (.inl hi)))))
  | updated hi => exact .inr (.inr (.inr (.inr (.inr (.inr hi)))))

end EnvWriters

/-! ### The writers of a channel's attributes -/

section ChanWriters
variable {i : Instr} {ch : Channel} {c c' : Chan} (h : ChanMove i ch c c')
include h

theorem ChanMove.baseNote_writer (hne : c'.baseNote ≠ c.baseNote) : ∃ note vel rt, i = .ctrig ch note vel rt := by
  cases h with
  | triggered note vel rt n x hi => exact ⟨note, vel, rt, hi⟩
  | _ => exact absurd rfl hne

theorem ChanMove.bend_writer (hne : c'.bend ≠ c.bend) : ∃ n, i = .cbend ch n := by
  cases h with
  | bent n hi => exact ⟨n, hi⟩
  | _ => exact absurd rfl hne

theorem ChanMove.vel_writer (hne : c'.vel ≠ c.vel) : ∃ note vel, i = .ctrig ch note vel true := by
  cases h with
  | triggered note vel rt n x hi hvel =>
    obtain rfl | hx := hvel
    · exact ⟨note, vel, hi⟩
    · exact absurd hx hne
  | _ => exact absurd rfl hne

theorem ChanMove.keyTrackEnabled_writer (hne : c'.keyTrackEnabled ≠ c.keyTrackEnabled) : ∃ x, i = .ckeyt ch x := by
  cases h with
  | keyTracked x hi => exact ⟨x, hi⟩
  | _ => exact absurd rfl hne

theorem ChanMove.velocitySensEnabled_writer (hne : c'.velocitySensEnabled ≠ c.velocitySensEnabled) :
    ∃ x, i = .cvsens ch x := by
  cases h with
  | sensed x hi => exact ⟨x, hi⟩
  | _ => exact absurd rfl hne

end ChanWriters

/-- Settles O47: each clause is the writers of one field among the moves a command can make. -/
theorem writersOfFields : Obligations.WritersOfFields := by
  unfold Obligations.WritersOfFields
  intro i s t h
  have henv := exec_envMove h
  have hchan := exec_chanMove h
  obtain ⟨hprev, htrig, hrel⟩ := exec_shadowMove h
  exact ⟨fun v k => (henv v k).values_writer, fun v k => (henv v k).points_writer,
    fun v k => (henv v k).speedDivider_writer, fun v k => (henv v k).step_writer, fun v k => (henv v k).state_writer,
    fun ch => (hchan ch).baseNote_writer, fun ch => (hchan ch).bend_writer, fun ch => (hchan ch).vel_writer,
    fun ch => (hchan ch).keyTrackEnabled_writer, fun ch => (hchan ch).velocitySensEnabled_writer,
    fun p => (hprev p).resolve_left, htrig.resolve_left, hrel.resolve_left⟩

/-! ### The other channels -/

theorem channelOf_of_envelope? {i : Instr} {ch : Channel} {k : EnvKind} (h : i.envelope? = some (ch, k)) :
    channelOf i = some ch := by
  cases i <;> cases h <;> rfl

section OtherChannel
variable {i : Instr} {ch : Channel} (hi : channelOf i = some ch)
include hi

theorem ne_frame_of_channelOf : i ≠ .frame := by
  rintro rfl; cases hi

theorem EnvMove.eq_of_other {v : Voice} {k : EnvKind} {e e' : Envelope} (h : EnvMove i v k e e')
    (hv : voiceChannel v ≠ ch) : e' = e := by
  have hne : channelOf i ≠ some (voiceChannel v) := fun hv' => hv (Option.some_inj.mp (hv'.symm.trans hi))
  cases h with
  | kept => rfl
  | addressed hi' => exact absurd (channelOf_of_envelope? hi') hne
  | triggered note vel hi' => subst hi'; exact absurd rfl hne
  | released hi' => subst hi'; exact absurd rfl hne
  | updated hi' =>
    obtain rfl | rfl := hi'
    · exact absurd rfl hne
    · exact absurd rfl (ne_frame_of_channelOf hi)

theorem ChanMove.eq_of_other {ch' : Channel} {c c' : Chan} (h : ChanMove i ch' c c') (hch : ch' ≠ ch) : c' = c := by
  have hne : channelOf i ≠ some ch' := fun hch' => hch (Option.some_inj.mp (hch'.symm.trans hi))
  cases h with
  | kept => rfl
  | triggered note vel rt n x hi' => subst hi'; exact absurd rfl hne
  | bent n hi' => subst hi'; exact absurd rfl hne
  | keyTracked x hi' => subst hi'; exact absurd rfl hne
  | sensed x hi' => subst hi'; exact absurd rfl hne

end OtherChannel

/-- Settles O48: every move on another channel's envelopes, attributes, shadow and flags is the one that keeps them. -/
theorem channelsAreSeparate : Obligations.ChannelsAreSeparate := by
  unfold Obligations.ChannelsAreSeparate
  intro i s t ch ch' h hi hch
  have hframe := ne_frame_of_channelOf hi
  have hne : channelOf i ≠ some ch' := fun hch' => hch (Option.some_inj.mp (hch'.symm.trans hi))
  obtain ⟨hprev, htrig, hrel⟩ := exec_shadowMove h
  refine ⟨(exec_chanMove h ch').eq_of_other hi hch, ?envs, ?shadow, ?flags⟩
  case envs =>
    rintro v rfl k
    exact (exec_envMove h v k).eq_of_other hi hch
  case shadow =>
    rintro p rfl
    obtain hp | rfl | hf := hprev p
    · exact hp
    · exact absurd rfl hne
    · exact absurd hf hframe
  case flags =>
    rintro rfl
    constructor
    · obtain ht | ⟨_, _, _, rfl⟩ | rfl | hf := htrig
      · exact ht
      · exact absurd rfl hne
      · exact absurd rfl hne
      · exact absurd hf hframe
    · obtain hr | rfl | rfl | hf := hrel
      · exact hr
      · exact absurd rfl hne
      · exact absurd rfl hne
      · exact absurd hf hframe

end Sys2Proof.Machine
end

section
/-! PROOFS. Two runs of one command (spec R33, R180). Blocks that agree on the channels a command reads, up to a relation
of envelopes that playback cannot tell apart, agree after it, and the command puts out the same. The statement on a
command's own channel takes equality as the relation, the one on Off envelopes equality but for the step of an Off
envelope. -/

namespace Sys2Proof.Machine

open Sys2Proof.Stmt

/-- A relation of envelopes that playback respects and cannot observe: the gate and the value of `EADV` are the same on
related envelopes, and the operations a channel command performs keep them related. -/
structure PlaybackRel (cfg : Config) (r : Envelope → Envelope → Prop) : Prop where
  state : ∀ e e', r e e' → e'.state = e.state
  value : ∀ e e', r e e' → e'.advanceValue cfg = e.advanceValue cfg
  advance : ∀ e e', r e e' → r e.advance e'.advance
  trigger : ∀ e e', r e e' → r e.trigger e'.trigger
  release : ∀ e e', r e e' → r e.release e'.release

/-- Two blocks agree on the channels in `C`, with their envelopes related by `r`. -/
structure Agree (C : Channel → Prop) (r : Envelope → Envelope → Prop) (b b' : Block) : Prop where
  chan : ∀ ch, C ch → b'.chan ch = b.chan ch
  env : ∀ v, C (voiceChannel v) → ∀ k, r (b.env v k) (b'.env v k)
  prevHi : ∀ p, C (pulseChannel p) → b'.prevHiOf p = b.prevHiOf p
  pending : C .dmc → b'.pendingTrigger = b.pendingTrigger ∧ b'.pendingRelease = b.pendingRelease

theorem sameChannel_iff_agree (ch : Channel) (b b' : Block) :
    SameChannel ch b b' ↔ Agree (· = ch) (fun e e' => e' = e) b b' := by
  constructor
  · rintro ⟨hchan, henv, hprev, hpend⟩
    exact ⟨fun c hc => hc ▸ hchan, henv, hprev, fun hd => hpend hd.symm⟩
  · rintro ⟨hchan, henv, hprev, hpend⟩
    exact ⟨hchan ch rfl, henv, hprev, fun hd => hpend hd.symm⟩

/-! ### Which envelopes CUPD advances -/

/-- CUPD of a voice advances its four envelopes on the active path, on the Off path only the duty envelope of a VRC6 voice
(spec R142, R150, R151). -/
def cupdAdvances (v : Voice) (gate : EnvState) (k : EnvKind) : Bool :=
  gate != .off || (k == .duty && (v == .v1 || v == .v2 || v == .saw))

theorem cupd_env_off {cfg : Config} {b : Block} {v : Voice} (h : (b.env v .arp).state = .off) (k : EnvKind) :
    (cupd cfg (voiceChannel v) b).block.env v k =
      if cupdAdvances v .off k then (b.env v k).advance else b.env v k := by
  cases v with
  | p1 | p2 => simp only [voiceChannel, cupd, cupdPulse_off cfg b h]; cases k <;> rfl
  | tri => simp only [voiceChannel, cupd, cupdTriangle_off cfg b h]; cases k <;> rfl
  | noi => simp only [voiceChannel, cupd, cupdNoise_off cfg b h]; cases k <;> rfl
  | v1 | v2 => simp only [voiceChannel, cupd, cupdVrc6Pulse_off cfg b h, env_setEnv]; cases k <;> rfl
  | saw => simp only [voiceChannel, cupd, cupdSaw_off cfg b h, env_setEnv]; cases k <;> rfl

theorem cupd_env_active {cfg : Config} {b : Block} {v : Voice} (h : (b.env v .arp).state ≠ .off) (k : EnvKind) :
    (cupd cfg (voiceChannel v) b).block.env v k = (b.env v k).advance := by
  have hactive : (activeBlock cfg v b).env v k = (b.env v k).advance := by rw [activeBlock_env, if_pos rfl]
  cases v with
  | p1 | p2 => simpa only [voiceChannel, cupd, cupdPulse_active cfg b h, setPrevHi_env] using hactive
  | tri => simpa only [voiceChannel, cupd, cupdTriangle_active cfg b h] using hactive
  | noi => simpa only [voiceChannel, cupd, cupdNoise_active cfg b h] using hactive
  | v1 | v2 => simpa only [voiceChannel, cupd, cupdVrc6Pulse_active cfg b h] using hactive
  | saw => simpa only [voiceChannel, cupd, cupdSaw_active cfg b h] using hactive

theorem cupd_env (cfg : Config) (b : Block) (v : Voice) (k : EnvKind) :
    (cupd cfg (voiceChannel v) b).block.env v k =
      if cupdAdvances v (b.env v .arp).state k then (b.env v k).advance else b.env v k := by
  by_cases h : (b.env v .arp).state = .off
  · rw [cupd_env_off h, h]
  · rw [cupd_env_active h, if_pos (by simp [cupdAdvances, h])]

/-! ### Updates of blocks that agree -/

section Agreement
variable {cfg : Config} {C : Channel → Prop} {r : Envelope → Envelope → Prop} {b b' : Block}

theorem Agree.setEnv (h : Agree C r b b') (v : Voice) (k : EnvKind) {e e' : Envelope} (he : r e e') :
    Agree C r (b.setEnv v k e) (b'.setEnv v k e') where
  chan := h.chan
  env v' hv' k' := by
    rw [env_setEnv, env_setEnv]
    split_ifs
    · exact he
    · exact h.env v' hv' k'
  prevHi := h.prevHi
  pending := h.pending

theorem Agree.setChan (h : Agree C r b b') (ch : Channel) (a : Chan) :
    Agree C r (b.setChan ch a) (b'.setChan ch a) where
  chan ch' hch' := by
    rw [chan_setChan, chan_setChan, h.chan ch' hch']
  env := h.env
  prevHi := h.prevHi
  pending := h.pending

theorem Agree.mapVoice (h : Agree C r b b') (v : Voice) {f : Envelope → Envelope}
    (hf : ∀ e e', r e e' → r (f e) (f e')) : Agree C r (b.mapVoice v f) (b'.mapVoice v f) where
  chan := h.chan
  env v' hv' k := by
    rw [mapVoice_env, mapVoice_env]
    split_ifs
    · exact hf _ _ (h.env v' hv' k)
    · exact h.env v' hv' k
  prevHi := h.prevHi
  pending := h.pending

variable (hr : PlaybackRel cfg r)
include hr

theorem Agree.trigVoice (h : Agree C r b b') {v : Voice} (hv : C (voiceChannel v)) (note vel : BitVec 7) (rt : Bool) :
    Agree C r (trigVoice v note vel rt b) (trigVoice v note vel rt b') := by
  unfold Machine.trigVoice
  rw [h.chan _ hv]
  cases rt with
  | false => exact h.setChan ..
  | true => exact (h.setChan ..).mapVoice v hr.trigger

/-! ### CUPD of blocks that agree -/

section Update
variable (h : Agree C r b b')
include h

theorem Agree.gate {v : Voice} (hv : C (voiceChannel v)) : (b'.env v .arp).state = (b.env v .arp).state :=
  hr.state _ _ (h.env v hv .arp)

theorem Agree.readOf_eq {v : Voice} (hv : C (voiceChannel v)) (k : EnvKind) : readOf cfg b' v k = readOf cfg b v k :=
  hr.value _ _ (h.env v hv k)

/-- The writes of a Pulse and the shadow it leaves. -/
theorem Agree.cupdPulse {p : Fin 2} (hp : C (pulseChannel p)) :
    (cupdPulse cfg p (pulseVoice p) b').writes = (cupdPulse cfg p (pulseVoice p) b).writes ∧
      (cupdPulse cfg p (pulseVoice p) b').block.prevHiOf p = (cupdPulse cfg p (pulseVoice p) b).block.prevHiOf p := by
  have hv : C (voiceChannel (pulseVoice p)) := voiceChannel_pulseVoice p ▸ hp
  have hgate := h.gate hr hv
  by_cases hoff : (b.env (pulseVoice p) .arp).state = .off
  · rw [cupdPulse_off _ _ hoff, cupdPulse_off _ _ (hgate.trans hoff)]
    exact ⟨rfl, h.prevHi p hp⟩
  · rw [cupdPulse_active _ _ hoff, cupdPulse_active _ _ (hgate ▸ hoff), h.chan _ hv]
    simp only [h.readOf_eq hr hv, h.prevHi p hp, prevHiOf_setPrevHi, if_true, and_self]

theorem Agree.cupdTriangle (hv : C (voiceChannel .tri)) : (cupdTriangle cfg b').writes = (cupdTriangle cfg b).writes := by
  have hgate := h.gate hr hv
  by_cases hoff : (b.env .tri .arp).state = .off
  · rw [cupdTriangle_off _ _ hoff, cupdTriangle_off _ _ (hgate.trans hoff)]
  · rw [cupdTriangle_active _ _ hoff, cupdTriangle_active _ _ (hgate ▸ hoff), h.chan .tri hv]
    simp only [h.readOf_eq hr hv]

theorem Agree.cupdNoise (hv : C (voiceChannel .noi)) : (cupdNoise cfg b').writes = (cupdNoise cfg b).writes := by
  have hgate := h.gate hr hv
  by_cases hoff : (b.env .noi .arp).state = .off
  · rw [cupdNoise_off _ _ hoff, cupdNoise_off _ _ (hgate.trans hoff)]
  · rw [cupdNoise_active _ _ hoff, cupdNoise_active _ _ (hgate ▸ hoff), h.chan .noi hv]
    simp only [h.readOf_eq hr hv]

theorem Agree.cupdVrc6Pulse (q : Fin 2) {v : Voice} (hv : C (voiceChannel v)) :
    (cupdVrc6Pulse cfg q v b').writes = (cupdVrc6Pulse cfg q v b).writes := by
  have hgate := h.gate hr hv
  by_cases hoff : (b.env v .arp).state = .off
  · rw [cupdVrc6Pulse_off _ _ hoff, cupdVrc6Pulse_off _ _ (hgate.trans hoff)]
    simp only [h.readOf_eq hr hv]
  · rw [cupdVrc6Pulse_active _ _ hoff, cupdVrc6Pulse_active _ _ (hgate ▸ hoff), h.chan _ hv]
    simp only [h.readOf_eq hr hv]

theorem Agree.cupdSaw (hv : C (voiceChannel .saw)) : (cupdSaw cfg b').writes = (cupdSaw cfg b).writes := by
  have hgate := h.gate hr hv
  by_cases hoff : (b.env .saw .arp).state = .off
  · rw [cupdSaw_off _ _ hoff, cupdSaw_off _ _ (hgate.trans hoff)]
  · rw [cupdSaw_active _ _ hoff, cupdSaw_active _ _ (hgate ▸ hoff), h.chan .saw hv]
    simp only [h.readOf_eq hr hv]

omit hr in
theorem Agree.cupdDpcm (hd : C .dmc) : (cupdDpcm cfg b').writes = (cupdDpcm cfg b).writes := by
  obtain ⟨htrig, hrel⟩ := h.pending hd
  unfold Machine.cupdDpcm
  rw [h.chan .dmc hd, htrig, hrel]

/-- The writes of CUPD depend on its channel alone. -/
theorem Agree.cupd_writes {ch : Channel} (hc : C ch) : (cupd cfg ch b').writes = (cupd cfg ch b).writes := by
  cases ch with
  | p1 => exact (h.cupdPulse (p := 0) hr hc).1
  | p2 => exact (h.cupdPulse (p := 1) hr hc).1
  | tri => exact h.cupdTriangle hr hc
  | noi => exact h.cupdNoise hr hc
  | dmc => exact h.cupdDpcm hc
  | v1 => exact h.cupdVrc6Pulse hr 0 hc
  | v2 => exact h.cupdVrc6Pulse hr 1 hc
  | saw => exact h.cupdSaw hr hc

theorem Agree.cupd {ch : Channel} (hc : C ch) : Agree C r (cupd cfg ch b).block (cupd cfg ch b').block where
  chan ch' hch' := by rw [cupd_chan, cupd_chan, h.chan ch' hch']
  env v hv k := by
    by_cases hch : voiceChannel v = ch
    · subst hch
      rw [cupd_env, cupd_env, h.gate hr hv]
      split_ifs
      · exact hr.advance _ _ (h.env v hv k)
      · exact h.env v hv k
    · rw [cupd_env_other _ _ hch, cupd_env_other _ _ hch]
      exact h.env v hv k
  prevHi p hp := by
    by_cases hch : pulseChannel p = ch
    · subst hch
      rw [cupd_pulseChannel, cupd_pulseChannel]
      exact (h.cupdPulse hr hp).2
    · rw [cupd_prevHiOf_other _ _ hch, cupd_prevHiOf_other _ _ hch]
      exact h.prevHi p hp
  pending hd := by
    by_cases hch : ch = .dmc
    · subst hch; exact ⟨rfl, rfl⟩
    · obtain ⟨ht, hl⟩ := cupd_pending_other cfg b hch
      obtain ⟨ht', hl'⟩ := cupd_pending_other cfg b' hch
      rw [ht, hl, ht', hl']
      exact h.pending hd

end Update

theorem Agree.cupdAll (h : Agree C r b b') {chs : List Channel} (hcs : ∀ ch ∈ chs, C ch) :
    Agree C r (cupdAll cfg chs b).block (cupdAll cfg chs b').block ∧
      (cupdAll cfg chs b').writes = (cupdAll cfg chs b).writes := by
  induction chs generalizing b b' with
  | nil => exact ⟨h, rfl⟩
  | cons ch chs ih =>
    obtain ⟨hc, hcs⟩ := List.forall_mem_cons.mp hcs
    obtain ⟨hblock, hwrites⟩ := ih (h.cupd hr hc) hcs
    refine ⟨hblock, ?_⟩
    simp only [Machine.cupdAll, hwrites, h.cupd_writes hr hc]

end Agreement

/-! ### Every command on blocks that agree -/

section Commands
variable {C : Channel → Prop} {r : Envelope → Envelope → Prop} (hr : PlaybackRel Config.current r) {i : Instr}
  (hi : ∀ ch, channelOf i = some ch → C ch) (hframe : i = .frame → ∀ ch, C ch)
include hr hi hframe

theorem Agree.chanEffect {b b' : Block} (h : Agree C r b b') :
    Agree C r (chanEffect i b).block (chanEffect i b').block ∧ (chanEffect i b').writes = (chanEffect i b).writes := by
  cases i with
  | ctrig ch note vel rt =>
    have hc := hi ch rfl
    obtain ⟨v, rfl⟩ | rfl := channel_cases ch
    · rw [chanEffect_ctrig_voice, chanEffect_ctrig_voice]
      exact ⟨h.trigVoice hr hc note vel rt, rfl⟩
    · rw [chanEffect_ctrig_dmc, chanEffect_ctrig_dmc, trigDpcm, trigDpcm, h.chan _ hc]
      obtain ⟨hchan, henv, hprev, hpend⟩ := h.setChan .dmc { b.chan .dmc with baseNote := note }
      exact ⟨⟨hchan, henv, hprev, fun hd => ⟨rfl, (hpend hd).2⟩⟩, rfl⟩
  | crel ch =>
    have hc := hi ch rfl
    obtain ⟨v, rfl⟩ | rfl := channel_cases ch
    · rw [chanEffect_crel_voice, chanEffect_crel_voice]
      exact ⟨h.mapVoice v hr.release, rfl⟩
    · exact ⟨⟨h.chan, h.env, h.prevHi, fun hd => ⟨(h.pending hd).1, rfl⟩⟩, rfl⟩
  | cbend ch n | ckeyt ch x | cvsens ch x =>
    simpa only [Machine.chanEffect, h.chan ch (hi ch rfl), and_true] using h.setChan ch _
  | cupd ch => exact ⟨h.cupd hr (hi ch rfl), h.cupd_writes hr (hi ch rfl)⟩
  | frame => exact h.cupdAll hr fun ch _ => hframe rfl ch
  | _ => exact ⟨h, rfl⟩

/-- One command from two states whose blocks agree on what it reads: the blocks agree after, and it puts out the same
writes and the same response. -/
theorem exec_agree {s s' t t' : State} (h : Agree C r s.block s'.block) (ht : exec i s = .next t)
    (ht' : exec i s' = .next t')
    (henv : ∀ e e', r e e' → r ((envEffect i).1 e) ((envEffect i).1 e') ∧ (envEffect i).2 e' = (envEffect i).2 e) :
    Agree C r t.block t'.block ∧
      ∃ ws x, t.trace = s.trace ++ ws ∧ t'.trace = s'.trace ++ ws ∧
        t.responses = s.responses ++ [x] ∧ t'.responses = s'.responses ++ [x] := by
  cases hie : i.envelope? with
  | none =>
    rw [exec_chan _ hie] at ht ht'
    cases ht; cases ht'
    obtain ⟨hblock, hwrites⟩ := h.chanEffect hr hi hframe
    exact ⟨hblock, _, _, rfl, congrArg (s'.trace ++ ·) hwrites, rfl, rfl⟩
  | some x =>
    obtain ⟨ch, k⟩ := x
    obtain ⟨v, rfl⟩ | rfl := channel_cases ch
    · rw [exec_env _ hie] at ht ht'
      cases ht; cases ht'
      obtain ⟨hrel, hval⟩ := henv _ _ (h.env v (hi _ (channelOf_of_envelope? hie)) k)
      exact ⟨h.setEnv v k hrel, _, _, rfl, rfl, rfl, congrArg (fun x => s'.responses ++ [⟨.ok, x⟩]) hval⟩
    · rw [exec_env_dmc _ hie] at ht ht'
      cases ht; cases ht'
      exact ⟨h, [], _, (List.append_nil _).symm, (List.append_nil _).symm, rfl, rfl⟩

end Commands

/-! ### The own channel -/

theorem playbackRel_eq (cfg : Config) : PlaybackRel cfg (fun e e' => e' = e) where
  state _ _ := congrArg Envelope.state
  value _ _ := congrArg (Envelope.advanceValue cfg)
  advance _ _ := congrArg Envelope.advance
  trigger _ _ := congrArg Envelope.trigger
  release _ _ := congrArg Envelope.release

/-- Settles O49: on the own channel `exec_agree` with equality of envelopes; on one envelope, `exec_env` says that the
effect and the answer are functions of it. -/
theorem commandsReadTheirOwnChannel : Obligations.CommandsReadTheirOwnChannel := by
  unfold Obligations.CommandsReadTheirOwnChannel
  refine fun i s s' t t' ht ht' => ⟨fun ch hi hsame => ?channel, fun v k hie hsame => ?envelope⟩
  case channel =>
    rw [sameChannel_iff_agree] at hsame ⊢
    refine exec_agree (playbackRel_eq _) (fun ch' hi' => Option.some_inj.mp (hi'.symm.trans hi))
      (fun hf => absurd hf (ne_frame_of_channelOf hi)) hsame ht ht' ?_
    rintro e _ rfl
    exact ⟨rfl, rfl⟩
  case envelope =>
    rw [exec_env _ hie] at ht ht'
    cases ht; cases ht'
    refine ⟨?_, _, complete_responses .., ?_⟩
    · rw [complete_block, complete_block, env_setEnv_same, env_setEnv_same, hsame]
    · rw [complete_responses, hsame]

/-! ### The step of an Off envelope -/

/-- Equal but for the step of an envelope that is Off: the relation of `SameButOffSteps`. -/
def SameButOffStep (e e' : Envelope) : Prop := e' = e ∨ (e.state = .off ∧ e' = { e with step := e'.step })

theorem sameButOffSteps_iff_agree (b b' : Block) :
    SameButOffSteps b b' ↔ Agree (fun _ => True) SameButOffStep b b' := by
  constructor
  · rintro ⟨⟨hchan, hprev, hpend⟩, henv⟩
    exact ⟨fun ch _ => hchan ch, fun v _ => henv v, fun p _ => hprev p, fun _ => hpend⟩
  · rintro ⟨hchan, henv, hprev, hpend⟩
    exact ⟨⟨fun ch => hchan ch trivial, fun p => hprev p trivial, hpend trivial⟩, fun v => henv v trivial⟩

/-- Related envelopes are equal, or Off with another step. -/
theorem SameButOffStep.cases {e e' : Envelope} (h : SameButOffStep e e') :
    e' = e ∨ (e.state = .off ∧ ∃ n, e' = { e with step := n }) :=
  h.imp_right fun ⟨hoff, he⟩ => ⟨hoff, _, he⟩

theorem advance_of_off {e : Envelope} (h : e.state = .off) : e.advance = { e with step := advancedStep e } := by
  rw [Envelope.advance, advancedState_of_off h, ← h]

theorem advanceValue_of_off {e : Envelope} (h : e.state = .off) (cfg : Config) : e.advanceValue cfg = 0 := by
  rw [Envelope.advanceValue, if_pos (advancedState_of_off h)]

theorem SameButOffStep.advance {e e' : Envelope} (h : SameButOffStep e e') : SameButOffStep e.advance e'.advance := by
  obtain rfl | ⟨hoff, n, rfl⟩ := h.cases
  · exact .inl rfl
  · have hoff' : ({ e with step := n } : Envelope).state = .off := hoff
    rw [advance_of_off hoff, advance_of_off hoff']
    exact .inr ⟨hoff, rfl⟩

theorem SameButOffStep.advanceValue {e e' : Envelope} (h : SameButOffStep e e') (cfg : Config) :
    e'.advanceValue cfg = e.advanceValue cfg := by
  obtain rfl | ⟨hoff, n, rfl⟩ := h.cases
  · rfl
  · rw [advanceValue_of_off hoff, advanceValue_of_off (by exact hoff)]

theorem playbackRel_sameButOffStep (cfg : Config) : PlaybackRel cfg SameButOffStep where
  state e e' h := by obtain rfl | ⟨-, n, rfl⟩ := h.cases <;> rfl
  value e e' h := h.advanceValue cfg
  advance e e' h := h.advance
  trigger e e' h := by obtain rfl | ⟨-, n, rfl⟩ := h.cases <;> exact .inl rfl
  release e e' h := by obtain rfl | ⟨-, n, rfl⟩ := h.cases <;> exact .inl rfl

/-- An envelope command keeps the relation, and but for EGRAW it does not answer the step of an Off envelope. -/
theorem SameButOffStep.envEffect {e e' : Envelope} (h : SameButOffStep e e') {i : Instr} (hi : ∀ ch k, i ≠ .egraw ch k) :
    SameButOffStep ((envEffect i).1 e) ((envEffect i).1 e') ∧ (envEffect i).2 e' = (envEffect i).2 e := by
  obtain rfl | ⟨hoff, n, rfl⟩ := h.cases
  · exact ⟨.inl rfl, rfl⟩
  · cases i with
    | etrig | erel => exact ⟨.inl rfl, rfl⟩
    | eadv => exact ⟨h.advance, h.advanceValue _⟩
    | estep =>
      refine ⟨h, ?_⟩
      simp only [Machine.envEffect, stepValue, hoff, if_true]
    | egraw ch k => exact absurd rfl (hi ch k)
    | _ => exact ⟨.inr ⟨hoff, rfl⟩, rfl⟩

/-- Settles O50: `exec_agree` on all channels, with envelopes equal but for the step of an Off one. -/
theorem offStepUnobservable : Obligations.OffStepUnobservable := by
  unfold Obligations.OffStepUnobservable
  intro i s s' t t' hi hsame hresp htrace ht ht'
  rw [sameButOffSteps_iff_agree] at hsame ⊢
  obtain ⟨hblock, ws, x, hws, hws', hx, hx'⟩ :=
    exec_agree (playbackRel_sameButOffStep _) (fun _ _ => trivial) (fun _ _ => trivial) hsame ht ht'
      fun e e' h => h.envEffect hi
  exact ⟨hblock, by rw [hx, hx', hresp], by rw [hws, hws', htrace]⟩

end Sys2Proof.Machine
end

section
/-! PROOFS. The register writes of the commands (spec R44, R145, R161): where they go, how many a CUPD emits, and when a
Pulse writes the frame counter and the high register; and the packing of the samples (spec R47). -/

namespace Sys2Proof.Machine

open Sys2Proof.Stmt

/-! ### Every write is in the register map -/

/-- Every write goes to an address of the register map (spec R44). -/
def InMap (ws : List ApuWrite) : Prop := ∀ w ∈ ws, w.addr.toNat ∈ apuMap

theorem regAddr_mem_apuMap (r : ApuReg) : (regAddr r).toNat ∈ apuMap := by
  cases r with
  | pVol p | pSweep p | pLo p | pHi p => revert p; decide
  | vVol q | vLo q | vHi q => revert q; decide
  | _ => decide

@[simp] theorem inMap_nil : InMap [] := fun _ h => absurd h List.not_mem_nil

@[simp] theorem inMap_apuWrite_cons (r : ApuReg) (x : Byte) (ws : List ApuWrite) :
    InMap (apuWrite r x :: ws) ↔ InMap ws := by
  simp only [InMap, List.forall_mem_cons, and_iff_right_iff_imp]
  exact fun _ => regAddr_mem_apuMap r

@[simp] theorem inMap_append (ws ws' : List ApuWrite) : InMap (ws ++ ws') ↔ InMap ws ∧ InMap ws' :=
  List.forall_mem_append

theorem inMap_pulsePeriodWrites (p : Fin 2) (prev : Option (BitVec 3)) (P : Nat) :
    InMap (pulsePeriodWrites p prev P) := by
  cases prev with
  | none => simp [pulsePeriodWrites]
  | some old => simp only [pulsePeriodWrites]; split_ifs <;> simp [sweepTrick]

theorem inMap_dpcmTriggerWrites (cfg : Config) (note : BitVec 7) : InMap (dpcmTriggerWrites cfg note) := by
  unfold dpcmTriggerWrites
  repeat' split
  all_goals simp

theorem inMap_cupd (cfg : Config) (ch : Channel) (b : Block) : InMap (cupd cfg ch b).writes := by
  obtain ⟨p, v, -, -, he⟩ | ⟨-, he⟩ | ⟨-, he⟩ | ⟨-, he⟩ | ⟨q, v, -, he⟩ | ⟨-, he⟩ := cupd_cases cfg b ch <;> rw [he]
  · by_cases h : (b.env v .arp).state = .off
    · simp [cupdPulse_off cfg b h]
    · simp [cupdPulse_active cfg b h, inMap_pulsePeriodWrites]
  · by_cases h : (b.env .tri .arp).state = .off
    · simp [cupdTriangle_off cfg b h]
    · simp [cupdTriangle_active cfg b h]
  · by_cases h : (b.env .noi .arp).state = .off
    · simp [cupdNoise_off cfg b h]
    · simp [cupdNoise_active cfg b h]
  · simp only [cupdDpcm, inMap_append]
    constructor
    · split_ifs
      · exact inMap_dpcmTriggerWrites _ _
      · exact inMap_nil
    · split_ifs <;> simp
  · by_cases h : (b.env v .arp).state = .off
    · simp [cupdVrc6Pulse_off cfg b h]
    · simp [cupdVrc6Pulse_active cfg b h]
  · by_cases h : (b.env .saw .arp).state = .off
    · simp [cupdSaw_off cfg b h]
    · simp [cupdSaw_active cfg b h]

theorem inMap_cupdAll (cfg : Config) (chs : List Channel) (b : Block) : InMap (cupdAll cfg chs b).writes := by
  induction chs generalizing b with
  | nil => exact inMap_nil
  | cons ch chs ih => exact (inMap_append ..).mpr ⟨inMap_cupd cfg ch b, ih _⟩

/-- A command emits writes only to the register map, and none unless it updates a channel. -/
theorem chanEffect_writes (i : Instr) (b : Block) :
    InMap (chanEffect i b).writes ∧ ((i ≠ .frame ∧ ∀ ch, i ≠ .cupd ch) → (chanEffect i b).writes = []) := by
  cases i with
  | ctrig ch note vel rt =>
    obtain ⟨v, rfl⟩ | rfl := channel_cases ch
    · rw [chanEffect_ctrig_voice]; exact ⟨inMap_nil, fun _ => rfl⟩
    · exact ⟨inMap_nil, fun _ => rfl⟩
  | crel ch =>
    obtain ⟨v, rfl⟩ | rfl := channel_cases ch
    · rw [chanEffect_crel_voice]; exact ⟨inMap_nil, fun _ => rfl⟩
    · exact ⟨inMap_nil, fun _ => rfl⟩
  | cupd ch => exact ⟨inMap_cupd _ _ _, fun h => absurd rfl (h.2 ch)⟩
  | frame => exact ⟨inMap_cupdAll _ _ _, fun h => absurd rfl h.1⟩
  | _ => exact ⟨inMap_nil, fun _ => rfl⟩

/-- Settles O41: an illegal command and an envelope command emit nothing, a channel command what `chanEffect` says. -/
theorem writesStayInTheMap : Obligations.WritesStayInTheMap := by
  unfold Obligations.WritesStayInTheMap
  intro i s t h
  obtain ⟨k, -, rfl⟩ | ⟨v, k, -, rfl⟩ | ⟨-, rfl⟩ := exec_cases h
  · exact ⟨[], (List.append_nil _).symm, inMap_nil, fun _ => rfl⟩
  · exact ⟨[], rfl, inMap_nil, fun _ => rfl⟩
  · exact ⟨_, rfl, chanEffect_writes ..⟩

/-! ### The number of writes -/

theorem length_pulsePeriodWrites (p : Fin 2) (prev : Option (BitVec 3)) (P : Nat) :
    (pulsePeriodWrites p prev P).length = 1 ∨ (pulsePeriodWrites p prev P).length = 2 ∨
      (pulsePeriodWrites p prev P).length = 6 := by
  cases prev with
  | none => exact .inr (.inl rfl)
  | some old =>
    simp only [pulsePeriodWrites]
    split_ifs
    · exact .inr (.inr rfl)
    · exact .inr (.inr rfl)
    · exact .inl rfl
    · exact .inr (.inl rfl)

theorem length_dpcmTriggerWrites (cfg : Config) (note : BitVec 7) :
    (dpcmTriggerWrites cfg note).length = 0 ∨ (dpcmTriggerWrites cfg note).length = 5 := by
  unfold dpcmTriggerWrites
  repeat' split
  all_goals simp

/-- Settles O39: the two paths of each variant, by the gate, and the two parts of the DPCM channel's writes. -/
theorem updateWriteCounts : Obligations.UpdateWriteCounts := by
  unfold Obligations.UpdateWriteCounts
  intro ch s t h
  rw [exec_cupd] at h; cases h
  refine ⟨_, rfl, ?off, ?active, ?dpcm⟩
  case off =>
    rintro v rfl h
    cases v with
    | p1 | p2 => simp only [voiceChannel, cupd, cupdPulse_off _ _ h, List.length_singleton]
    | tri => simp only [voiceChannel, cupd, cupdTriangle_off _ _ h, List.length_singleton]
    | noi => simp only [voiceChannel, cupd, cupdNoise_off _ _ h, List.length_singleton]
    | v1 | v2 => simp only [voiceChannel, cupd, cupdVrc6Pulse_off _ _ h, List.length_singleton]
    | saw => simp only [voiceChannel, cupd, cupdSaw_off _ _ h, List.length_singleton]
  case active =>
    rintro v rfl h
    cases v with
    | p1 | p2 =>
      simp only [voiceChannel, cupd, cupdPulse_active _ _ h, List.length_append, List.length_singleton]
      exact (length_pulsePeriodWrites _ _ _).imp (congrArg (· + 1)) (Or.imp (congrArg (· + 1)) (congrArg (· + 1)))
    | tri => simp only [voiceChannel, cupd, cupdTriangle_active _ _ h]; rfl
    | noi => simp only [voiceChannel, cupd, cupdNoise_active _ _ h]; rfl
    | v1 | v2 => simp only [voiceChannel, cupd, cupdVrc6Pulse_active _ _ h]; rfl
    | saw => simp only [voiceChannel, cupd, cupdSaw_active _ _ h]; rfl
  case dpcm =>
    rintro rfl
    have htrig := length_dpcmTriggerWrites Config.current (s.block.chan .dmc).baseNote
    simp only [cupd, cupdDpcm, List.length_append]
    refine ⟨fun ht => ?_, fun ht hr => ?_, fun ht hr => ?_⟩
    · rw [ht]; cases s.block.pendingRelease <;> rfl
    · rw [ht, hr]; simpa using htrig
    · rw [ht, hr]; simpa using htrig

/-! ### The sweep trick and the high register -/

/-- The writes name an address. -/
def Touches (a : Addr) (ws : List ApuWrite) : Prop := ∃ w ∈ ws, w.addr = a

section Touches
variable (a : Addr) (r : ApuReg) (x : Byte) (ws ws' : List ApuWrite)

@[simp] theorem touches_nil : ¬ Touches a [] := by simp [Touches]

@[simp] theorem touches_apuWrite_cons : Touches a (apuWrite r x :: ws) ↔ regAddr r = a ∨ Touches a ws := by
  simp only [Touches, List.exists_mem_cons_iff]; rfl

@[simp] theorem touches_append : Touches a (ws ++ ws') ↔ Touches a ws ∨ Touches a ws' := by
  simp only [Touches, List.mem_append, or_and_right, exists_or]

end Touches

section PulseAddresses
variable (p : Fin 2)

@[simp] theorem regAddr_pVol_ne_apuFc : regAddr (.pVol p) ≠ regAddr .apuFc := by revert p; decide
@[simp] theorem regAddr_pLo_ne_apuFc : regAddr (.pLo p) ≠ regAddr .apuFc := by revert p; decide
@[simp] theorem regAddr_pHi_ne_apuFc : regAddr (.pHi p) ≠ regAddr .apuFc := by revert p; decide
@[simp] theorem regAddr_pVol_ne_pHi : regAddr (.pVol p) ≠ regAddr (.pHi p) := by revert p; decide
@[simp] theorem regAddr_pLo_ne_pHi : regAddr (.pLo p) ≠ regAddr (.pHi p) := by revert p; decide
@[simp] theorem regAddr_pSweep_ne_pHi : regAddr (.pSweep p) ≠ regAddr (.pHi p) := by revert p; decide
@[simp] theorem regAddr_apuFc_ne_pHi : regAddr .apuFc ≠ regAddr (.pHi p) := by revert p; decide

theorem regAddr_pHi_eq : regAddr (.pHi p) = BitVec.ofNat 16 (0x4003 + 4 * p.val) := by revert p; decide

end PulseAddresses

theorem touches_apuFc_sweepTrick (p : Fin 2) (up : Bool) : Touches (regAddr .apuFc) (sweepTrick p up) :=
  ⟨_, List.mem_cons_self, rfl⟩

theorem not_touches_pHi_sweepTrick (p : Fin 2) (up : Bool) : ¬ Touches (regAddr (.pHi p)) (sweepTrick p up) := by
  simp [sweepTrick]

/-- The period writes reset the frame counter exactly when the coarse period moves by one (spec R145, R146). -/
theorem touches_apuFc_pulsePeriodWrites (p : Fin 2) (prev : Option (BitVec 3)) (P : Nat) :
    Touches (regAddr .apuFc) (pulsePeriodWrites p prev P) ↔
      ∃ old, prev = some old ∧ (((coarse P).toNat : Int) - old.toNat = 1 ∨ ((coarse P).toNat : Int) - old.toNat = -1) := by
  cases prev with
  | none => simp [pulsePeriodWrites]
  | some old =>
    simp only [pulsePeriodWrites, Option.some_inj, exists_eq_left']
    split_ifs with hup hdown hsame
    · simp [touches_apuFc_sweepTrick, hup]
    · simp [touches_apuFc_sweepTrick, ← hdown]
    · simp [hsame]
    · simp only [touches_apuWrite_cons, touches_nil, regAddr_pLo_ne_apuFc, regAddr_pHi_ne_apuFc, or_self, false_iff]
      omega

/-- They write the high register exactly when there is no shadow or the coarse period moves by more than one (spec R145). -/
theorem touches_pHi_pulsePeriodWrites (p : Fin 2) (prev : Option (BitVec 3)) (P : Nat) :
    Touches (regAddr (.pHi p)) (pulsePeriodWrites p prev P) ↔
      prev = none ∨ ∃ old, prev = some old ∧ 1 < (((coarse P).toNat : Int) - old.toNat).natAbs := by
  cases prev with
  | none => simp [pulsePeriodWrites]
  | some old =>
    simp only [pulsePeriodWrites, reduceCtorEq, false_or, Option.some_inj, exists_eq_left']
    split_ifs with hup hdown hsame
    · simp [not_touches_pHi_sweepTrick, hup]
    · simp [not_touches_pHi_sweepTrick, ← hdown]
    · simp [hsame]
    · have hne : (coarse P).toNat ≠ old.toNat := mt BitVec.eq_of_toNat_eq hsame
      simp only [touches_apuWrite_cons, true_or, or_true, true_iff]
      omega

/-- The active path of a Pulse, as far as its addresses and its shadow go. -/
theorem cupdPulse_active_shape {cfg : Config} {b : Block} {p : Fin 2} {v : Voice} (h : (b.env v .arp).state ≠ .off) :
    ∃ P x, (cupdPulse cfg p v b).writes = pulsePeriodWrites p (b.prevHiOf p) P ++ [apuWrite (.pVol p) x] ∧
      (cupdPulse cfg p v b).block.prevHiOf p = some (coarse P) := by
  rw [cupdPulse_active cfg b h]
  exact ⟨_, _, rfl, by rw [prevHiOf_setPrevHi, if_pos rfl]⟩

/-- Settles O40: on the Off path the one write is to neither register; on the active path the period writes decide, and
the shadow after is the coarse period. -/
theorem sweepTrickFires : Obligations.SweepTrickFires := by
  unfold Obligations.SweepTrickFires
  intro p s t h
  rw [exec_cupd, cupd_pulseChannel] at h
  cases h
  refine ⟨_, rfl, ?trick, ?high⟩
  case trick =>
    change Touches (regAddr .apuFc) _ ↔ _
    by_cases hoff : (s.block.env (pulseVoice p) .arp).state = .off
    · simp [cupdPulse_off _ _ hoff, hoff]
    · obtain ⟨P, x, hwrites, hshadow⟩ := cupdPulse_active_shape (cfg := Config.current) (p := p) hoff
      simp [hwrites, hshadow, hoff, touches_apuFc_pulsePeriodWrites]
  case high =>
    rw [← regAddr_pHi_eq]
    change Touches (regAddr (.pHi p)) _ ↔ _
    by_cases hoff : (s.block.env (pulseVoice p) .arp).state = .off
    · simp [cupdPulse_off _ _ hoff, hoff]
    · obtain ⟨P, x, hwrites, hshadow⟩ := cupdPulse_active_shape (cfg := Config.current) (p := p) hoff
      simp [hwrites, hshadow, hoff, touches_pHi_pulsePeriodWrites]

/-! ### Sample packing -/

theorem dvd_paddedLen (len : Nat) : 64 ∣ paddedLen len := by
  rw [Nat.dvd_iff_mod_eq_zero, paddedLen, show (64 : Nat) = 2 ^ 6 from rfl, Nat.and_mod_two_pow]
  exact Nat.and_zero _

theorem sampleAddr_eq_some_iff {cfg : Config} {i A : Nat} :
    sampleAddr cfg i = some A ↔ i < cfg.sampleLens.length ∧ ((cfg.sampleLens.take i).map paddedLen).sum = A := by
  simp [sampleAddr]

/-- Settles O37: an address is a sum of padded lengths, each a multiple of 64, and the next address has one more
summand. -/
theorem dpcmPacking : Obligations.DpcmPacking := by
  unfold Obligations.DpcmPacking
  refine fun cfg => ⟨?first, ?next, ?aligned, ?together⟩
  case first => exact fun h => sampleAddr_eq_some_iff.mpr ⟨List.length_pos_iff.mpr h, rfl⟩
  case next =>
    intro i A L B hA hL hB
    obtain ⟨-, rfl⟩ := sampleAddr_eq_some_iff.mp hA
    obtain ⟨-, rfl⟩ := sampleAddr_eq_some_iff.mp hB
    rw [sampleLen] at hL
    rw [List.take_add_one, hL, List.map_append, List.sum_append]
    simp [paddedLen]
  case aligned =>
    intro i A hA
    obtain ⟨-, rfl⟩ := sampleAddr_eq_some_iff.mp hA
    refine List.dvd_sum fun x hx => ?_
    obtain ⟨len, -, rfl⟩ := List.mem_map.mp hx
    exact dvd_paddedLen len
  case together =>
    intro i
    by_cases hi : i < cfg.sampleLens.length <;> simp [sampleAddr, sampleLen, hi]

end Sys2Proof.Machine
end

section
/-! PROOFS. Runs of several commands on one envelope: the sequences of playback (spec R88, R89), the coupled setters in any
order (spec R109), and a table read and loaded back (spec R70, R103). -/

namespace Sys2Proof.Machine

open Sys2Proof.Stmt

theorem execAll_cons {i : Instr} {s t : State} (h : exec i s = .next t) (is : List Instr) :
    execAll (i :: is) s = execAll is t := by
  simp only [execAll, h]

/-! ### The n-th EADV -/

theorem Inv.iterate_advance {e : Envelope} (he : e.Inv) (n : Nat) : (Envelope.advance^[n] e).Inv := by
  induction n with
  | zero => exact he
  | succ n ih => rw [Function.iterate_succ_apply']; exact Inv.advance ih

theorem execAll_replicate_eadv (v : Voice) (k : EnvKind) (n : Nat) (s : State) :
    ∃ t, execAll (List.replicate (n + 1) (.eadv (voiceChannel v) k)) s = some t ∧
      t.block.env v k = Envelope.advance^[n + 1] (s.block.env v k) ∧
      t.responses.getLast? = some ⟨.ok, (Envelope.advance^[n] (s.block.env v k)).advanceValue Config.current⟩ := by
  induction n generalizing s with
  | zero =>
    refine ⟨_, execAll_cons (exec_env s rfl) [], ?_, ?_⟩
    · rw [complete_block, env_setEnv_same]; rfl
    · rw [complete_responses, List.getLast?_concat]; rfl
  | succ n ih =>
    obtain ⟨t, hrun, henv, hresp⟩ := ih _
    rw [complete_block, env_setEnv_same] at henv hresp
    exact ⟨t, (execAll_cons (exec_env s rfl) _).trans hrun, henv, hresp⟩

/-- After an envelope command that leaves `e`, the n-th EADV (from 0) advances `e` advanced `n` times and returns what it
reads there. -/
theorem execAll_nthAdvance {i : Instr} {v : Voice} {k : EnvKind} (hi : i.envelope? = some (voiceChannel v, k)) {s : State}
    {e : Envelope} (he : (envEffect i).1 (s.block.env v k) = e) (hinv : e.Inv) (n : Nat) :
    ∃ t x, execAll (i :: List.replicate (n + 1) (.eadv (voiceChannel v) k)) s = some t ∧
      t.block.env v k = (Envelope.advance^[n] e).advance ∧ t.responses.getLast? = some ⟨.ok, x⟩ ∧
      Returns (Envelope.advance^[n] e) x := by
  rw [execAll_cons (exec_env s hi), he]
  obtain ⟨t, hrun, henv, hresp⟩ := execAll_replicate_eadv v k n _
  rw [complete_block, env_setEnv_same] at henv hresp
  rw [Function.iterate_succ_apply'] at henv
  exact ⟨t, _, hrun, henv, hresp, Inv.returns_advanceValue (Inv.iterate_advance hinv n) _⟩

/-- What an EADV that leaves its envelope playing returns. -/
theorem returns_of_playing {e : Envelope} {x : Value} (h : Returns e x) (hon : e.advance.state ≠ .off) :
    ∃ i : Fin 64, i.val = e.step / e.speedDivider ∧ x = e.values[i.val] := by
  rw [advance_eq_advanced] at hon
  rwa [Returns, if_neg hon] at h

theorem returns_of_off {e : Envelope} {x : Value} (h : Returns e x) (hoff : e.advance.state = .off) : x = 0 := by
  rw [advance_eq_advanced] at hoff
  rwa [Returns, if_pos hoff] at h

/-! ### The Initial phase (spec R88) -/

/-- The n-th position of a counter that starts at 0 and wraps from `R` to `L`. -/
def loopPosition (L R n : Nat) : Nat := if n < R then n else L + (n - R) % (R - L)

theorem loopPosition_lt {L R : Nat} (h : L < R) (n : Nat) : loopPosition L R n < R := by
  have := Nat.mod_lt (n - R) (show R - L > 0 by omega)
  unfold loopPosition; split_ifs <;> omega

theorem loopPosition_succ {L R : Nat} (h : L < R) (n : Nat) :
    loopPosition L R (n + 1) = if loopPosition L R n + 1 ≥ R then L else loopPosition L R n + 1 := by
  unfold loopPosition
  by_cases hn : n < R
  · rw [if_pos hn]
    by_cases hR : n + 1 < R
    · rw [if_pos hR, if_neg (by omega)]
    · rw [if_neg hR, if_pos (by omega), show n + 1 - R = 0 by omega, Nat.zero_mod, Nat.add_zero]
  · have hlt := Nat.mod_lt (n - R) (show R - L > 0 by omega)
    have hstep : (n + 1 - R) % (R - L) = ((n - R) % (R - L) + 1) % (R - L) := by
      rw [Nat.mod_add_mod, show n + 1 - R = n - R + 1 by omega]
    rw [if_neg hn, if_neg (by omega), hstep]
    by_cases hwrap : (n - R) % (R - L) + 1 = R - L
    · rw [if_pos (by omega), hwrap, Nat.mod_self, Nat.add_zero]
    · rw [if_neg (by omega), Nat.mod_eq_of_lt (by omega), Nat.add_assoc]

/-- The envelope `n` EADV after its trigger. -/
def Envelope.initialAt (e : Envelope) (n : Nat) : Envelope :=
  { e with
    state := .initial
    step := loopPosition (e.loopPoint * e.speedDivider) (e.releasePoint * e.speedDivider) n }

/-- The envelope `n` EADV after its release: the step goes on counting, also in Off. -/
def Envelope.releaseAt (e : Envelope) (n : Nat) : Envelope :=
  { e with
    step := e.releasePoint * e.speedDivider + n
    state := if n < (e.length - e.releasePoint) * e.speedDivider then .release else .off }

section Phases
variable {e : Envelope} (he : e.Inv)
include he

theorem Inv.speedDivider_pos : 0 < e.speedDivider := by
  obtain ⟨-, ⟨hdiv, -⟩, -⟩ := he
  exact hdiv

/-- The loop in steps: the entries' points times the divider, in their order. -/
theorem Inv.points_mul : e.loopPoint * e.speedDivider < e.releasePoint * e.speedDivider ∧
    e.releasePoint * e.speedDivider ≤ e.length * e.speedDivider := by
  obtain ⟨⟨hloop, hrel, -⟩, ⟨hdiv, -⟩, -⟩ := he
  exact ⟨Nat.mul_lt_mul_of_pos_right hloop hdiv, Nat.mul_le_mul_right _ hrel⟩

/-- In the Initial state the loop wraps before the length is reached, so EADV stays Initial. -/
theorem advance_initialAt (n : Nat) : (e.initialAt n).advance = e.initialAt (n + 1) := by
  obtain ⟨hloop, hrel⟩ := Inv.points_mul he
  have hstep : advancedStep (e.initialAt n) =
      loopPosition (e.loopPoint * e.speedDivider) (e.releasePoint * e.speedDivider) (n + 1) := by
    simp only [advancedStep, Envelope.initialAt, true_and, loopPosition_succ hloop]
  have hstate : advancedState (e.initialAt n) = .initial := by
    have hlt := loopPosition_lt hloop (n + 1)
    rw [advancedState, hstep, if_neg]
    · rfl
    · rintro ⟨-, hge⟩
      exact absurd hge (by simp only [Envelope.initialAt]; omega)
  rw [Envelope.advance, hstep, hstate]
  rfl

theorem iterate_advance_trigger (n : Nat) : Envelope.advance^[n] e.trigger = e.initialAt n := by
  obtain ⟨hloop, -⟩ := Inv.points_mul he
  induction n with
  | zero => rw [Envelope.initialAt, loopPosition, if_pos (by omega)]; rfl
  | succ n ih => rw [Function.iterate_succ_apply', ih, advance_initialAt he]

/-- The index the loop counter denotes: the divider leaves the table's own sequence (spec R88). -/
theorem initialAt_index (n : Nat) :
    (e.initialAt n).step / e.speedDivider =
      if n < e.releasePoint * e.speedDivider then n / e.speedDivider
      else e.loopPoint +
        (n - e.releasePoint * e.speedDivider) % ((e.releasePoint - e.loopPoint) * e.speedDivider) / e.speedDivider := by
  rw [Envelope.initialAt, loopPosition, Nat.sub_mul]
  split_ifs
  · rfl
  · rw [Nat.mul_comm e.loopPoint, Nat.mul_add_div (Inv.speedDivider_pos he)]

/-! ### The Release phase (spec R89) -/

theorem advance_releaseAt (n : Nat) : (e.releaseAt n).advance = e.releaseAt (n + 1) := by
  have hstep : advancedStep (e.releaseAt n) = e.releasePoint * e.speedDivider + (n + 1) := by
    rw [advancedStep, if_neg]
    · rfl
    · rintro ⟨hinit, -⟩
      simp only [Envelope.releaseAt] at hinit
      split_ifs at hinit
  have hstate : advancedState (e.releaseAt n) = (e.releaseAt (n + 1)).state := by
    obtain ⟨-, hle⟩ := Inv.points_mul he
    rw [advancedState, hstep]
    simp only [Envelope.releaseAt, Nat.sub_mul]
    by_cases hn : n + 1 < e.length * e.speedDivider - e.releasePoint * e.speedDivider
    · rw [if_pos (show n < _ by omega), if_pos hn, if_neg (by omega)]
    · rw [if_neg hn]
      split_ifs with h1 h2 h2
      · rfl
      · exact absurd ⟨by decide, by omega⟩ h2
      · rfl
      · rfl
  rw [Envelope.advance, hstep, hstate]
  rfl

theorem iterate_advance_release (hrel : e.releasePoint < e.length) (n : Nat) :
    Envelope.advance^[n] e.release = e.releaseAt n := by
  induction n with
  | zero =>
    have hpos : 0 < (e.length - e.releasePoint) * e.speedDivider := Nat.mul_pos (by omega) (Inv.speedDivider_pos he)
    rw [Envelope.releaseAt, if_pos hpos]
    simp only [Function.iterate_zero, id_eq, Envelope.release, releaseState, if_pos hrel, Nat.add_zero]
  | succ n ih => rw [Function.iterate_succ_apply', ih, advance_releaseAt he]

theorem releaseAt_index (n : Nat) : (e.releaseAt n).step / e.speedDivider = e.releasePoint + n / e.speedDivider := by
  rw [Envelope.releaseAt, Nat.mul_comm, Nat.mul_add_div (Inv.speedDivider_pos he)]

end Phases

/-- Settles O13: the n-th EADV reads the envelope at the loop counter's n-th position and leaves it at the next. -/
theorem initialPhaseSequence : Obligations.InitialPhaseSequence := by
  unfold Obligations.InitialPhaseSequence
  intro v k s n he
  obtain ⟨t, x, hrun, henv, hresp, hret⟩ :=
    execAll_nthAdvance (i := .etrig (voiceChannel v) k) (e := (s.block.env v k).trigger) rfl rfl (Inv.trigger he) n
  rw [iterate_advance_trigger he] at henv hret
  have hstate : (((s.block.env v k).initialAt n).advance).state = .initial := by rw [advance_initialAt he]; rfl
  obtain ⟨i, hi, rfl⟩ := returns_of_playing hret (by rw [hstate]; decide)
  exact ⟨t, hrun, henv ▸ hstate, i, hresp, hi.trans (initialAt_index he n)⟩

/-- Settles O14: the n-th EADV reads the envelope `n` steps after the release point and leaves it one step on, where it is
Off exactly when the tail is used up. -/
theorem releasePhaseSequence : Obligations.ReleasePhaseSequence := by
  unfold Obligations.ReleasePhaseSequence
  intro v k s n he hrel
  obtain ⟨t, x, hrun, henv, hresp, hret⟩ :=
    execAll_nthAdvance (i := .erel (voiceChannel v) k) (e := (s.block.env v k).release) rfl rfl (Inv.release he) n
  rw [iterate_advance_release he hrel] at henv hret
  have hstate : ((s.block.env v k).releaseAt n).advance.state =
      if n + 1 < ((s.block.env v k).length - (s.block.env v k).releasePoint) * (s.block.env v k).speedDivider then .release
      else .off := by rw [advance_releaseAt he]; rfl
  refine ⟨t, hrun, ?_⟩
  rw [henv]
  split_ifs with hn
  · rw [if_pos (by omega)] at hstate
    obtain ⟨i, hi, rfl⟩ := returns_of_playing hret (by rw [hstate]; decide)
    exact ⟨hstate, i, hi.trans (releaseAt_index he n), hresp⟩
  · rw [if_neg (by omega)] at hstate
    obtain rfl := returns_of_off hret hstate
    exact ⟨hstate, hresp⟩

/-! ### The coupled setters in any order (spec R109) -/

theorem SameButEnv.refl (v : Voice) (k : EnvKind) (b : Block) : SameButEnv v k b b :=
  ⟨fun _ _ _ => rfl, SameChannels.refl b⟩

theorem SameButEnv.trans {v : Voice} {k : EnvKind} {b b' b'' : Block} (h : SameButEnv v k b b')
    (h' : SameButEnv v k b' b'') : SameButEnv v k b b'' :=
  ⟨fun v' k' hne => (h'.1 v' k' hne).trans (h.1 v' k' hne), h.2.trans h'.2⟩

/-- A counter within the bounds is not clamped. -/
theorem clampNat_of_mem {n lo hi : Nat} (hlo : lo ≤ n) (hhi : n ≤ hi) (hfit : n < 2 ^ 31) :
    clampNat (BitVec.ofNat 32 n) lo hi = n := by
  have hn : (BitVec.ofNat 32 n).toInt = n := counterValue_toInt hfit
  rw [clampNat, operand, hn, clamp_of_mem (by omega) (by omega), Int.toNat_natCast]

/-- The three coupled setters with a target. -/
def coupledSetters (ch : Channel) (k : EnvKind) (l r n : Nat) : List Instr :=
  [.eslen ch k (BitVec.ofNat 32 n), .esrel ch k (BitVec.ofNat 32 r), .esloop ch k (BitVec.ofNat 32 l)]

/-- From `e` to `e'` the setters `is` bring their points to the target, no point that was there has left it, and nothing
but the points has changed. -/
structure Reaches (ch : Channel) (k : EnvKind) (l r n : Nat) (is : List Instr) (e e' : Envelope) : Prop where
  rest : e' = { e with loopPoint := e'.loopPoint, releasePoint := e'.releasePoint, length := e'.length }
  length : e.length = n ∨ .eslen ch k (BitVec.ofNat 32 n) ∈ is → e'.length = n
  releasePoint : e.releasePoint = r ∨ .esrel ch k (BitVec.ofNat 32 r) ∈ is → e'.releasePoint = r
  loopPoint : e.loopPoint = l ∨ .esloop ch k (BitVec.ofNat 32 l) ∈ is → e'.loopPoint = l

section Setters
variable {ch : Channel} {k : EnvKind} {l r n : Nat}

theorem Reaches.refl (e : Envelope) : Reaches ch k l r n [] e e where
  rest := rfl
  length := fun h => h.resolve_right List.not_mem_nil
  releasePoint := fun h => h.resolve_right List.not_mem_nil
  loopPoint := fun h => h.resolve_right List.not_mem_nil

theorem or_mem_cons {p : Prop} {a i : Instr} {is : List Instr} (h : p ∨ a ∈ i :: is) : (p ∨ a ∈ [i]) ∨ a ∈ is := by
  rwa [List.mem_singleton, or_assoc, ← List.mem_cons]

theorem Reaches.trans {i : Instr} {is : List Instr} {e e' e'' : Envelope} (h : Reaches ch k l r n [i] e e')
    (h' : Reaches ch k l r n is e' e'') : Reaches ch k l r n (i :: is) e e'' where
  rest := by rw [h'.rest, h.rest]
  length hp := h'.length ((or_mem_cons hp).imp_left h.length)
  releasePoint hp := h'.releasePoint ((or_mem_cons hp).imp_left h.releasePoint)
  loopPoint hp := h'.loopPoint ((or_mem_cons hp).imp_left h.loopPoint)

variable (hl : l < r) (hr : r ≤ n) (hn : n ≤ 64)
include hl hr hn

theorem reaches_eslen {e : Envelope} (he : e.Inv) :
    Reaches ch k l r n [.eslen ch k (BitVec.ofNat 32 n)] e (e.setLength (BitVec.ofNat 32 n)) := by
  obtain ⟨⟨hloop, -, -⟩, -, -⟩ := he
  have hn' : clampNat (BitVec.ofNat 32 n) 1 64 = n := clampNat_of_mem (by omega) hn (by omega)
  refine ⟨rfl, fun _ => hn', fun h => ?release, fun h => ?loop⟩
  case release =>
    obtain rfl : e.releasePoint = r := h.resolve_right (by simp)
    simp only [Envelope.setLength, hn', if_neg (show ¬ e.releasePoint > n by omega)]
  case loop =>
    obtain rfl : e.loopPoint = l := h.resolve_right (by simp)
    simp only [Envelope.setLength, hn']
    rw [if_neg]; split_ifs <;> omega

theorem reaches_esrel {e : Envelope} :
    Reaches ch k l r n [.esrel ch k (BitVec.ofNat 32 r)] e (e.setRelease (BitVec.ofNat 32 r)) := by
  have hr' : clampNat (BitVec.ofNat 32 r) 1 64 = r := clampNat_of_mem (by omega) (by omega) (by omega)
  refine ⟨rfl, fun h => ?length, fun _ => hr', fun h => ?loop⟩
  case length =>
    obtain rfl : e.length = n := h.resolve_right (by simp)
    simp only [Envelope.setRelease, hr', if_neg (show ¬ e.length < r by omega)]
  case loop =>
    obtain rfl : e.loopPoint = l := h.resolve_right (by simp)
    simp only [Envelope.setRelease, hr', if_neg (show ¬ e.loopPoint ≥ r by omega)]

theorem reaches_esloop {e : Envelope} (he : e.Inv) :
    Reaches ch k l r n [.esloop ch k (BitVec.ofNat 32 l)] e (e.setLoop (BitVec.ofNat 32 l)) := by
  obtain ⟨⟨-, hrel, -⟩, -, -⟩ := he
  have hl' : clampNat (BitVec.ofNat 32 l) 0 63 = l := clampNat_of_mem (by omega) (by omega) (by omega)
  refine ⟨rfl, fun h => ?length, fun h => ?release, fun _ => hl'⟩
  case length =>
    obtain rfl : e.length = n := h.resolve_right (by simp)
    simp only [Envelope.setLoop, hl']
    rw [if_neg]; split_ifs <;> omega
  case release =>
    obtain rfl : e.releasePoint = r := h.resolve_right (by simp)
    simp only [Envelope.setLoop, hl', if_neg (show ¬ e.releasePoint ≤ l by omega)]

/-- Why the order does not matter: a setter moves another point only to keep `loopPoint < releasePoint ≤ length`, and a
point at a valid target is never in its way (spec R109). -/
theorem reaches_setter {e : Envelope} (he : e.Inv) {i : Instr} (hi : i ∈ coupledSetters ch k l r n) :
    Reaches ch k l r n [i] e ((envEffect i).1 e) := by
  simp only [coupledSetters, List.mem_cons, List.not_mem_nil, or_false] at hi
  obtain rfl | rfl | rfl := hi
  · exact reaches_eslen hl hr hn he
  · exact reaches_esrel hl hr hn
  · exact reaches_esloop hl hr hn he

theorem execAll_setters {v : Voice} {is : List Instr} (his : ∀ i ∈ is, i ∈ coupledSetters (voiceChannel v) k l r n)
    {s : State} (he : (s.block.env v k).Inv) :
    ∃ t, execAll is s = some t ∧ Reaches (voiceChannel v) k l r n is (s.block.env v k) (t.block.env v k) ∧
      SameButEnv v k s.block t.block := by
  induction is generalizing s with
  | nil => exact ⟨s, rfl, .refl _, .refl ..⟩
  | cons i is ih =>
    obtain ⟨hi, his⟩ := List.forall_mem_cons.mp his
    have henv : i.envelope? = some (voiceChannel v, k) := by
      simp only [coupledSetters, List.mem_cons, List.not_mem_nil, or_false] at hi
      obtain rfl | rfl | rfl := hi <;> rfl
    obtain ⟨t, hrun, hreach, hsame⟩ := ih his (s := s.complete (s.block.setEnv v k _) [] ((envEffect i).2 (s.block.env v k)))
      (by rw [complete_block, env_setEnv_same]; exact Inv.envEffect he i)
    rw [complete_block, env_setEnv_same] at hreach
    exact ⟨t, (execAll_cons (exec_env s henv) is).trans hrun, (reaches_setter hl hr hn he hi).trans hreach,
      (sameButEnv_setEnv ..).trans hsame⟩

end Setters

/-- Settles O22: each setter brings its point to the target and leaves there those that are, so what counts is which
setters run, and a permutation has all three. -/
theorem setterOrderIndependence : Obligations.SetterOrderIndependence := by
  unfold Obligations.SetterOrderIndependence
  intro v k s l r n cs he hl hr hn hperm
  obtain ⟨t, hrun, ⟨hrest, hlength, hrelease, hloop⟩, hsame⟩ :=
    execAll_setters hl hr hn (fun i hi => hperm.mem_iff.mp hi) he
  refine ⟨t, hrun, ?_, hsame⟩
  rw [hrest, hlength (.inr (hperm.mem_iff.mpr (by simp))), hrelease (.inr (hperm.mem_iff.mpr (by simp))),
    hloop (.inr (hperm.mem_iff.mpr (by simp)))]

/-! ### Reading the tables and loading them back (spec R70, R103) -/

/-- Writing an entry back changes nothing. -/
@[simp] theorem writeValue_value (e : Envelope) (i : Fin 64) : e.writeValue i (e.value i) = e := by
  simp [Envelope.writeValue, Envelope.value]

theorem execAll_egval (v : Voice) (xs : List (EnvKind × Fin 64)) (s : State) :
    ∃ t, execAll (xs.map fun x => .egval (voiceChannel v) x.1 x.2) s = some t ∧ t.block = s.block ∧
      t.responses = s.responses ++ xs.map fun x => ⟨.ok, (s.block.env v x.1).value x.2⟩ := by
  induction xs generalizing s with
  | nil => exact ⟨s, rfl, rfl, (List.append_nil _).symm⟩
  | cons x xs ih =>
    have hexec : exec (.egval (voiceChannel v) x.1 x.2) s = _ := readEnv_voice v x.1 s (·.value x.2)
    obtain ⟨t, hrun, hblock, hresp⟩ := ih (s.complete s.block [] ((s.block.env v x.1).value x.2))
    refine ⟨t, (execAll_cons hexec _).trans hrun, hblock, ?_⟩
    rw [hresp, complete_responses, List.append_assoc]
    rfl

theorem execAll_eldval_same (v : Voice) (xs : List (EnvKind × Fin 64)) {s : State} {b : Block} (hb : s.block = b) :
    ∃ u, execAll (xs.map fun x => .eldval (voiceChannel v) x.1 x.2 ((b.env v x.1).value x.2)) s = some u ∧
      u.block = b := by
  induction xs generalizing s with
  | nil => exact ⟨s, rfl, hb⟩
  | cons x xs ih =>
    have hexec : exec (.eldval (voiceChannel v) x.1 x.2 ((b.env v x.1).value x.2)) s = .next (s.complete b [] 0) := by
      refine (updateEnv_voice v x.1 s (·.writeValue x.2 ((b.env v x.1).value x.2))).trans ?_
      rw [hb, writeValue_value, setEnv_env]
    obtain ⟨u, hrun, hblock⟩ := ih (complete_block s b [] 0)
    exact ⟨u, (execAll_cons hexec _).trans hrun, hblock⟩

theorem length_tableEntries : tableEntries.length = 256 := by
  simp [tableEntries]

/-- Settles O23: SERIALIZE answers the entries in their order and DESERIALIZE writes each back where it was read. -/
theorem serializeRoundTrip : Obligations.SerializeRoundTrip := by
  unfold Obligations.SerializeRoundTrip
  intro v s
  obtain ⟨t, hrun, hblock, hresp⟩ := execAll_egval v tableEntries s
  obtain ⟨u, hrun', hblock'⟩ := execAll_eldval_same v tableEntries hblock
  have hread : t.responses.drop s.responses.length =
      tableEntries.map fun x => ⟨.ok, (s.block.env v x.1).value x.2⟩ := by
    rw [hresp, List.drop_left]
  refine ⟨t, u, hrun, ?_, ?_, hblock'⟩
  · rw [hread, deserialize, List.map_map, List.zipWith_map_right, List.zipWith_self]
    exact hrun'
  · rw [hread, List.length_map, length_tableEntries]

end Sys2Proof.Machine
end
